-- ==== Sys2Proof/Word.lean ====
section
/-!
DEFINITION. The word types of the block's interface: R7 (`W` = 16, `ADDR_W` = 3), R71 and R72.
Bit 0 is the least significant bit (R10); no byte order exists at this interface (R52).
-/

namespace Sys2Proof

/-- A `W`-bit word: the width of `POS`, `POSMAX`, `POSTGT`, `TOT`, `RUNT` and of the bus data (R7). -/
abbrev Word := BitVec 16

/-- A register word address, `ADDR_W` = 3 bits (R7, R50). -/
abbrev Addr := BitVec 3

/-- A `BUS` transaction word `T` (R71). -/
abbrev BusWord := BitVec 20

/-- An `EV` event vector `E` (R72). -/
abbrev EvVec := BitVec 3

end Sys2Proof
end

