-- ==== Sys2Proof/Syntax.lean ====
section
/-!
DEFINITION. The operations of the block, one constructor per row of spec/opcode_table.json (R78), with the
operands R73 and R80 give them, and the words that carry them (R70).
-/

namespace Sys2Proof

/-- The 22 operations of R78. A read's `DATA` is not an operand: "a read with any `DATA` is the same read" (R71);
`RESET` has none either: `E[2] = 1` is `RESET` alone, whatever the other bits are (R72). -/
inductive Instr where
  /-- `RESET` (R210). -/
  | reset
  /-- `EDGE` (R105). -/
  | edge
  /-- `TICK` (R115). -/
  | tick
  /-- `NOP` (R95). -/
  | nop
  /-- `ENABLE.O` (R91). -/
  | enableO
  /-- `ENABLE.C` (R92). -/
  | enableC
  /-- `DISABLE` (R93). -/
  | disable
  /-- `ZPOS` (R106). -/
  | zpos
  /-- `WR.CSR.RSV v`, `v` in `0x0005` to `0xFFFF` (R151). -/
  | wrCsrRsv (v : Word)
  /-- `WR.POS v` (R149). -/
  | wrPos (v : Word)
  /-- `WR.POSMAX v` (R147). -/
  | wrPosmax (v : Word)
  /-- `WR.POSTGT v` (R148). -/
  | wrPostgt (v : Word)
  /-- `WR.TOT v` (R149). -/
  | wrTot (v : Word)
  /-- `WR.RUNT v` (R149). -/
  | wrRunt (v : Word)
  /-- `WR.RSV a v`, `a` 6 or 7 (R150). -/
  | wrRsv (a : Addr) (v : Word)
  /-- `RD.CSR` (R140). -/
  | rdCsr
  /-- `RD.POS` (R141). -/
  | rdPos
  /-- `RD.POSMAX` (R142). -/
  | rdPosmax
  /-- `RD.POSTGT` (R143). -/
  | rdPostgt
  /-- `RD.TOT` (R144). -/
  | rdTot
  /-- `RD.RUNT` (R145). -/
  | rdRunt
  /-- `RD.RSV a`, `a` 6 or 7 (R146). -/
  | rdRsv (a : Addr)
  deriving DecidableEq, Repr

/-- The two formats of R70, "told apart by the path it arrives on and not by any bit". -/
inductive OpWord where
  /-- A `BUS` transaction word from the HOST (R71). -/
  | bus (t : BusWord)
  /-- An `EV` event vector from the SENSE, TIMER and RST agents (R72). -/
  | ev (e : EvVec)
  deriving DecidableEq, Repr

/-- Why a word is not one operation. No `BUS` word is ever rejected (R76). -/
inductive DecodeReject where
  /-- `E = 000` "is no event and is not an operation" (R72). -/
  | noEvent
  /-- `E = 011` "is two operations, `EDGE` then `TICK`" (R72), so not one. -/
  | severalOperations
  /-- The number has a bit that its format does not have (R71, R72). -/
  | bitsOutsideFormat
  /-- No format has that many bits (R70). -/
  | noSuchFormat
  deriving DecidableEq, Repr

/-- One `BUS` row of the opcode table (R78): the row is matched by `(T and mask) == pattern` (R76). -/
structure BusRow where
  mnemonic : String
  pattern : BusWord
  mask : BusWord
  deriving DecidableEq, Repr

/-- One `EV` row of the opcode table (R78). -/
structure EvRow where
  mnemonic : String
  pattern : EvVec
  mask : EvVec
  deriving DecidableEq, Repr

end Sys2Proof
end

