-- ==== Sys2Proof/WellFormed.lean ====
section
/-!
DEFINITION. Which instruction terms are operations of the block: an operand is inside the range its row of the
opcode table gives it (R78, R80).
-/

namespace Sys2Proof

/-- `v` is a reserved `CSR` command value, `0x0005` to `0xFFFF` (R74, R151). -/
abbrev ReservedCommand (v : Word) : Prop := 5 ≤ v.toNat

/-- `a` is a reserved address, 6 or 7 (R51, R79). -/
abbrev ReservedAddr (a : Addr) : Prop := 6 ≤ a.toNat

/-- The check of an instruction term. Every other operand is a whole 16-bit `DATA` field (R73). -/
def WellFormed : Instr → Bool
  | .reset | .edge | .tick | .nop | .enableO | .enableC | .disable | .zpos => true
  | .wrCsrRsv v => decide (ReservedCommand v)
  | .wrPos _ | .wrPosmax _ | .wrPostgt _ | .wrTot _ | .wrRunt _ => true
  | .wrRsv a _ => decide (ReservedAddr a)
  | .rdCsr | .rdPos | .rdPosmax | .rdPostgt | .rdTot | .rdRunt => true
  | .rdRsv a => decide (ReservedAddr a)

end Sys2Proof
end

