-- ==== Sys2Proof/Decode.lean ====
section
/-!
DEFINITION. Decoding and encoding: the `BUS` fields (R71), the commands (R74), decoding of `BUS` words (R76) and
of event vectors (R77), the serialisation of one instant (R186), the encoder, the opcode table's `BUS` rows (R78)
and the trace notation (R80).
-/

namespace Sys2Proof

/-! ## The fields of a `BUS` word (R71) -/

/-- `T[19]`: 1 = write, 0 = read (R71). -/
def busWr (t : BusWord) : Bool := t.getLsbD 19

/-- `T[18:16]`: the register word address (R71). -/
def busAddr (t : BusWord) : Addr := t.extractLsb' 16 3

/-- `T[15:0]`: the write data (R71). -/
def busData (t : BusWord) : Word := t.extractLsb' 0 16

/-- The transaction word with the given fields (R71). -/
def mkBus (wr : Bool) (a : Addr) (d : Word) : BusWord := BitVec.ofBool wr ++ (a ++ d)

/-! ## Decoding -/

/-- The command a write to `CSR` selects: "the whole 16-bit `DATA` is compared" (R73, R74). -/
def decodeCommand (d : Word) : Instr :=
  if d = 0x0000 then .nop
  else if d = 0x0001 then .enableO
  else if d = 0x0002 then .enableC
  else if d = 0x0003 then .disable
  else if d = 0x0004 then .zpos
  else .wrCsrRsv d

/-- A write, by address (R76). -/
def decodeWrite (a : Addr) (d : Word) : Instr :=
  if a = 0 then decodeCommand d
  else if a = 1 then .wrPos d
  else if a = 2 then .wrPosmax d
  else if a = 3 then .wrPostgt d
  else if a = 4 then .wrTot d
  else if a = 5 then .wrRunt d
  else .wrRsv a d

/-- A read, by address; "`DATA` is not decoded" (R76). -/
def decodeRead (a : Addr) : Instr :=
  if a = 0 then .rdCsr
  else if a = 1 then .rdPos
  else if a = 2 then .rdPosmax
  else if a = 3 then .rdPostgt
  else if a = 4 then .rdTot
  else if a = 5 then .rdRunt
  else .rdRsv a

/-- Decoding of a `BUS` word: total, since "there is no illegal `BUS` word" (R76). -/
def decodeBus (t : BusWord) : Instr :=
  if busWr t then decodeWrite (busAddr t) (busData t) else decodeRead (busAddr t)

/-- The operations of an event vector, in order (R77): none for `000`, two for `011`. -/
def decodeEv (e : EvVec) : List Instr :=
  if e.getLsbD 2 then [.reset]
  else (if e.getLsbD 0 then [.edge] else []) ++ (if e.getLsbD 1 then [.tick] else [])

/-- The operations of one instant, in the order an implementation serialises them (R186): `RESET` "and then the
others are discarded", else `EDGE`, `TICK`, and last the HOST's transaction. -/
def instantOps (e : EvVec) (b : Option BusWord) : List Instr :=
  if e.getLsbD 2 then [.reset] else decodeEv e ++ (b.map decodeBus).toList

/-- The one operation a word stands for, or the reason there is not exactly one. -/
def decodeWord : OpWord → Except DecodeReject Instr
  | .bus t => .ok (decodeBus t)
  | .ev e =>
    match decodeEv e with
    | [] => .error .noEvent
    | [i] => .ok i
    | _ => .error .severalOperations

/-! ## Encoding (R71, R72, R74, R78) -/

/-- The word of an instruction. A read is sent with `DATA` 0 and `RESET` with the other event lines low, since
those bits are not decoded (R71, R72). -/
def encode : Instr → OpWord
  | .reset => .ev 0b100
  | .edge => .ev 0b001
  | .tick => .ev 0b010
  | .nop => .bus (mkBus true 0 0x0000)
  | .enableO => .bus (mkBus true 0 0x0001)
  | .enableC => .bus (mkBus true 0 0x0002)
  | .disable => .bus (mkBus true 0 0x0003)
  | .zpos => .bus (mkBus true 0 0x0004)
  | .wrCsrRsv v => .bus (mkBus true 0 v)
  | .wrPos v => .bus (mkBus true 1 v)
  | .wrPosmax v => .bus (mkBus true 2 v)
  | .wrPostgt v => .bus (mkBus true 3 v)
  | .wrTot v => .bus (mkBus true 4 v)
  | .wrRunt v => .bus (mkBus true 5 v)
  | .wrRsv a v => .bus (mkBus true a v)
  | .rdCsr => .bus (mkBus false 0 0)
  | .rdPos => .bus (mkBus false 1 0)
  | .rdPosmax => .bus (mkBus false 2 0)
  | .rdPostgt => .bus (mkBus false 3 0)
  | .rdTot => .bus (mkBus false 4 0)
  | .rdRunt => .bus (mkBus false 5 0)
  | .rdRsv a => .bus (mkBus false a 0)

/-! ## The opcode table (R76, R78) -/

/-- An instruction's mnemonic in the opcode table (R78). -/
def mnemonicOf : Instr → String
  | .reset => "RESET"
  | .edge => "EDGE"
  | .tick => "TICK"
  | .nop => "NOP"
  | .enableO => "ENABLE.O"
  | .enableC => "ENABLE.C"
  | .disable => "DISABLE"
  | .zpos => "ZPOS"
  | .wrCsrRsv _ => "WR.CSR.RSV"
  | .wrPos _ => "WR.POS"
  | .wrPosmax _ => "WR.POSMAX"
  | .wrPostgt _ => "WR.POSTGT"
  | .wrTot _ => "WR.TOT"
  | .wrRunt _ => "WR.RUNT"
  | .wrRsv _ _ => "WR.RSV"
  | .rdCsr => "RD.CSR"
  | .rdPos => "RD.POS"
  | .rdPosmax => "RD.POSMAX"
  | .rdPostgt => "RD.POSTGT"
  | .rdTot => "RD.TOT"
  | .rdRunt => "RD.RUNT"
  | .rdRsv _ => "RD.RSV"

/-- The `BUS` rows of the opcode table, in the order they stand (R78). -/
def busRows : List BusRow :=
  [⟨"NOP", 0x80000, 0xFFFFF⟩, ⟨"ENABLE.O", 0x80001, 0xFFFFF⟩, ⟨"ENABLE.C", 0x80002, 0xFFFFF⟩,
   ⟨"DISABLE", 0x80003, 0xFFFFF⟩, ⟨"ZPOS", 0x80004, 0xFFFFF⟩, ⟨"WR.CSR.RSV", 0x80000, 0xF0000⟩]
  ++ [⟨"WR.POS", 0x90000, 0xF0000⟩, ⟨"WR.POSMAX", 0xA0000, 0xF0000⟩, ⟨"WR.POSTGT", 0xB0000, 0xF0000⟩,
   ⟨"WR.TOT", 0xC0000, 0xF0000⟩, ⟨"WR.RUNT", 0xD0000, 0xF0000⟩, ⟨"WR.RSV", 0xE0000, 0xE0000⟩]
  ++ [⟨"RD.CSR", 0x00000, 0xF0000⟩, ⟨"RD.POS", 0x10000, 0xF0000⟩, ⟨"RD.POSMAX", 0x20000, 0xF0000⟩,
   ⟨"RD.POSTGT", 0x30000, 0xF0000⟩, ⟨"RD.TOT", 0x40000, 0xF0000⟩, ⟨"RD.RUNT", 0x50000, 0xF0000⟩,
   ⟨"RD.RSV", 0x60000, 0xE0000⟩]

/-- The `EV` rows of the opcode table (R78). -/
def evRows : List EvRow :=
  [⟨"RESET", 0b100, 0b100⟩, ⟨"EDGE", 0b001, 0b111⟩, ⟨"TICK", 0b010, 0b111⟩]

/-- "pick the first with `(T and mask) == match`" (R76). -/
def firstRow (t : BusWord) : Option BusRow :=
  busRows.find? fun r => t &&& r.mask == r.pattern

/-! ## The trace notation (R80) -/

/-- One hexadecimal digit. -/
def hexDigit (n : Nat) : Char :=
  Char.ofNat (if n < 10 then 48 + n else 55 + n)

/-- The last `digits` hexadecimal digits of `n`, most significant first. -/
def hexDigits : Nat → Nat → List Char
  | 0, _ => []
  | digits + 1, n => hexDigits digits (n / 16) ++ [hexDigit (n % 16)]

/-- A 16-bit pattern as R10 writes it, `0x` and four hexadecimal digits, after a blank. -/
def wordOperand (v : Word) : List Char := [' ', '0', 'x'] ++ hexDigits 4 v.toNat

/-- A reserved address, 6 or 7, as one digit after a blank (R80). -/
def addrOperand (a : Addr) : List Char := [' ', hexDigit a.toNat]

/-- The operands of an instruction's trace line (R80). -/
def operandsText : Instr → List Char
  | .reset | .edge | .tick | .nop | .enableO | .enableC | .disable | .zpos => []
  | .wrCsrRsv v | .wrPos v | .wrPosmax v | .wrPostgt v | .wrTot v | .wrRunt v => wordOperand v
  | .wrRsv a v => addrOperand a ++ wordOperand v
  | .rdCsr | .rdPos | .rdPosmax | .rdPostgt | .rdTot | .rdRunt => []
  | .rdRsv a => addrOperand a

/-- The trace line of an instruction, `MNEMONIC [operand]`, as characters (R80); a written value is given as its
16-bit hexadecimal pattern. -/
def traceLine (i : Instr) : List Char := (mnemonicOf i).toList ++ operandsText i

/-- The encoding of a line: five hexadecimal digits for a `BUS` word, the three bits of an event vector (R80). -/
def wordText : OpWord → List Char
  | .bus t => hexDigits 5 t.toNat
  | .ev e => [hexDigit (e.toNat / 4), hexDigit (e.toNat / 2 % 2), hexDigit (e.toNat % 2)]

/-! ## Words numbered as spec/opcode_table.json numbers them -/

/-- The word of `nbits` bits with value `w`: up to eight bits come on the event path, up to 24 on the bus path
(the rows' 3 and 20 bits in whole bytes, log 22). -/
def opWordOf (nbits w : Nat) : Except DecodeReject OpWord :=
  if nbits = 0 then .error .noSuchFormat
  else if nbits ≤ 8 then
    if w < 2 ^ 3 then .ok (.ev (BitVec.ofNat 3 w)) else .error .bitsOutsideFormat
  else if nbits ≤ 24 then
    if w < 2 ^ 20 then .ok (.bus (BitVec.ofNat 20 w)) else .error .bitsOutsideFormat
  else .error .noSuchFormat

/-- Decoding of a numbered word, rejecting by name. -/
def decodeNumbered (nbits w : Nat) : Except DecodeReject Instr :=
  match opWordOf nbits w with
  | .ok x => decodeWord x
  | .error r => .error r

/-- The instruction the decoder reads from a numbered word, if it is exactly one operation. -/
def decodeTableWord (nbits w : Nat) : Option Instr :=
  match decodeNumbered nbits w with
  | .ok i => some i
  | .error _ => none

end Sys2Proof
end

