-- ==== Sys2Proof/Config.lean ====
section
/-!
DEFINITION. The parameters of the block (R7) with their constraints (R8), and the two things the spec leaves
free: their values, and the level of the SENSE pin at power-up. The free values have no body, and their TYPES
keep exactly the constraints of R8, so nothing can be proved of them beyond R8 (log 3, log 4).
-/

namespace Sys2Proof

/-- The OPEN parameters of R7. Each is "an argument of the model": a machine carries them in `State.par`, where
no operation writes them, and every statement quantifies over them. -/
structure Params where
  /-- `STALL_THRESHOLD`, in ticks, unsigned (R130). -/
  stallThreshold : Word
  /-- `MAX_OPEN_TICKS`, the open phase's bound, unsigned (R161). -/
  maxOpenTicks : Word
  /-- `MAX_CLOSE_TICKS`, the close phase's shorter bound, unsigned (R161, R162). -/
  maxCloseTicks : Word
  /-- `MOTOR_MIN_RANGE`, in pulses, compared signed (R163). -/
  motorMinRange : Word
  deriving DecidableEq, Repr

/-- R8 (a), (b), (c); R8 (d) says there is no further constraint. -/
abbrev Params.Valid (p : Params) : Prop :=
  p.stallThreshold.toNat ≤ 2 ^ 16 - 2
    ∧ p.maxCloseTicks.toNat < p.maxOpenTicks.toNat
    ∧ p.maxOpenTicks.toNat ≤ 2 ^ 16 - 2
    ∧ 1 ≤ p.motorMinRange.toNat
    ∧ p.motorMinRange.toNat ≤ 2 ^ 15 - 1

/-- FREE VALUE (log 3): `STALL_THRESHOLD`, any of 0 to 2^16 - 2 (R8 (a)). -/
opaque Config.stallThreshold : Fin 65535

/-- FREE VALUE (log 3): `MAX_OPEN_TICKS` less one, so that the bound is any of 1 to 2^16 - 2 (R8 (b)). -/
opaque Config.maxOpenLessOne : Fin 65534

/-- FREE VALUE (log 3): `MAX_CLOSE_TICKS`, anything below `MAX_OPEN_TICKS` (R8 (b)). -/
opaque Config.maxCloseTicks : Fin (Config.maxOpenLessOne.val + 1)

/-- FREE VALUE (log 3): `MOTOR_MIN_RANGE` less one, so that the range is any of 1 to 2^15 - 1 (R8 (c)). -/
opaque Config.minRangeLessOne : Fin 32767

/-- FREE VALUE (log 4): the level of the SENSE pin when the machine comes up; the spec gives none (R35, R108). -/
opaque Config.senseAtPowerUp : Bool

/-- The parameters of the machine that comes out of reset: the free values above (log 3). -/
def Config.params : Params where
  stallThreshold := BitVec.ofNat 16 Config.stallThreshold.val
  maxOpenTicks := BitVec.ofNat 16 (Config.maxOpenLessOne.val + 1)
  maxCloseTicks := BitVec.ofNat 16 Config.maxCloseTicks.val
  motorMinRange := BitVec.ofNat 16 (Config.minRangeLessOne.val + 1)

/-- `TICK_HZ` of R7, R122: nominal, in ticks a second; "no rule of this spec depends on the period" (log 15). -/
def Config.nominalTickHz : Nat := 64

end Sys2Proof
end

