-- ==== Sys2Proof/Machine/State.lean ====
section
/-!
DEFINITION. The state: the block's record `S` (R20), the SENSE pin (R192), the HOST's foreground program (R160 to
R171), the parameters (R7), what the last operation returned (R71, R72), and what the agents do next (R9).
All of it is plain data.
-/

namespace Sys2Proof.Machine

/-! ## The block's record -/

/-- `direction`, three-valued, so that the code 3, which "is never stored" (R21), cannot be written. -/
inductive Dir where
  | disabled
  | opening
  | closing
  deriving DecidableEq, Repr

/-- The directions `enable` takes: "a direction other than Opening or Closing cannot be expressed" (R73, R90). -/
inductive Drive where
  | opening
  | closing
  deriving DecidableEq, Repr

/-- The record `S` of R20: the six fields of the source and the two bits `TICKEN` (R27) and `SENSE_Q` (R28). -/
structure Block where
  /-- `DIR` (R21). -/
  dir : Dir
  /-- `POS`, signed (R22). -/
  pos : Word
  /-- `POSMAX`, signed; 0 means not calibrated (R23). -/
  posmax : Word
  /-- `POSTGT`, signed (R24). -/
  postgt : Word
  /-- `TOT`, unsigned (R25). -/
  tot : Word
  /-- `RUNT`, unsigned (R26). -/
  runt : Word
  /-- `TICKEN` (R27). -/
  ticken : Bool
  /-- `SENSE_Q`, the level last sampled; hidden from the HOST (R28). -/
  senseQ : Bool
  deriving DecidableEq, Repr

/-! ## What an operation returns -/

/-- The result of the operation just performed (log 6). -/
inductive Ret where
  /-- The operation returns nothing. -/
  | nothing
  /-- The word `Q` a read returns to the HOST (R71). -/
  | q (w : Word)
  /-- The bit `K` a `TICK` returns to the TIMER (R72, R119). -/
  | k (b : Bool)
  deriving DecidableEq, Repr

/-! ## The HOST's foreground program -/

/-- The sequences the foreground can call (R81). -/
inductive HostCall where
  /-- `CALIBRATE` (R160). -/
  | calibrate
  /-- `SEEK t` (R165). -/
  | seek (t : Word)
  /-- `PHASE(d, MAX)` on its own (R161). -/
  | phase (d : Drive) (max : Word)
  /-- `WAITIDLE` on its own (R168). -/
  | waitIdle
  /-- `CURPOS` (R170). -/
  | curPos
  /-- `ISCAL` (R171). -/
  | isCal
  deriving DecidableEq, Repr

/-- The two errors of a calibration; the result "has exactly three values" with `Ok` (R164). -/
inductive CalError where
  | runtimeExceeded
  | rangeTooSmall
  deriving DecidableEq, Repr

/-- What a sequence returned. -/
inductive HostRet where
  /-- `CALIBRATE` returned `Ok` (R160, line 12). -/
  | calOk
  /-- `CALIBRATE` returned an error (R164). -/
  | calErr (e : CalError)
  /-- `SEEK` returned; it "returns nothing" (R167). -/
  | sought
  /-- `PHASE` returned its verdict (R161). -/
  | phase (ok : Bool)
  /-- `WAITIDLE` ended (R168). -/
  | waited
  /-- `CURPOS` returned a position (R170). -/
  | position (p : Word)
  /-- `ISCAL` returned its answer (R171). -/
  | isCal (b : Bool)
  deriving DecidableEq, Repr

/-- Which `PHASE` is running: one called on its own, or line 2 or line 5 of `CALIBRATE` (R160). -/
inductive PhaseOf where
  | own (d : Drive) (max : Word)
  | calOpen
  | calClose
  deriving DecidableEq, Repr

/-- Whose `WAITIDLE` is running (R165 line 9, R168). -/
inductive WaitOf where
  | own
  | seek
  deriving DecidableEq, Repr

/-- Where the foreground stands: the transaction it issues next, with the local values it still needs. -/
inductive HostPt where
  /-- No sequence has been called. -/
  | idle
  /-- The last sequence returned. -/
  | done (r : HostRet)
  /-- `WAITIDLE`: `RD.CSR` (R168). -/
  | wait (w : WaitOf)
  /-- `PHASE`: `ENABLE d` (R161). -/
  | phEnable (p : PhaseOf)
  /-- `PHASE`: `RD.CSR` (R161). -/
  | phCsr (p : PhaseOf)
  /-- `PHASE`: `RD.RUNT` (R161). -/
  | phRunt (p : PhaseOf)
  /-- `PHASE`: `DISABLE`, the force stop (R161). -/
  | phDisable (p : PhaseOf)
  /-- `CALIBRATE` line 1: `WR.POSMAX 0` (R160). -/
  | calClear
  /-- `CALIBRATE` line 3: `ZPOS`, with the open phase's verdict (R160). -/
  | calZeroOpen (ok : Bool)
  /-- `CALIBRATE` line 7: `RD.POS` (R160). -/
  | calReadPos
  /-- `CALIBRATE` line 9: `WR.POSMAX m` (R160). -/
  | calWriteMax (m : Word)
  /-- `CALIBRATE` line 10: `ZPOS` (R160). -/
  | calZeroEnd (m : Word)
  /-- `CALIBRATE` line 11: `WR.POSMAX 0` after a range failure (R160, R163). -/
  | calUnset
  /-- `SEEK` line 1: `RD.POSMAX` (R165). -/
  | skMax (t : Word)
  /-- `SEEK` line 5: `RD.POS`, the target clamped (R165). -/
  | skPos (t : Word)
  /-- `SEEK` line 7: `WR.POSTGT t` (R165). -/
  | skTarget (t p : Word)
  /-- `SEEK` line 8: `ENABLE.O` or `ENABLE.C` (R165). -/
  | skEnable (t p : Word)
  /-- `CURPOS`: `RD.POS` (R170). -/
  | curPos
  /-- `ISCAL`: `RD.POSMAX` (R171). -/
  | isCal
  deriving DecidableEq, Repr

/-- What the HOST reads from the state after a seek (R167, R182): the target was reached, or `StallTimeout`. -/
inductive SeekOutcome where
  | arrived
  | stallTimeout
  deriving DecidableEq, Repr

/-! ## What the agents do next -/

/-- One thing an agent or a pin does (R3, R192). The list of them in `State` is the schedule (log 1). -/
inductive Arrival where
  /-- The event lines and the HOST transaction of one instant (R70, R186). -/
  | instant (ev : EvVec) (bus : Option BusWord)
  /-- The SENSE pin takes a level (R108). -/
  | pin (level : Bool)
  /-- The pin is sampled (R108). -/
  | sample
  /-- The foreground calls a sequence (R81). -/
  | call (c : HostCall)
  /-- The foreground performs the next transaction of its sequence (R160 to R171). -/
  | turn
  /-- Power-up: `RESET` of the block, and the HOST's software starts afresh (R211, log 12). -/
  | powerUp
  deriving DecidableEq, Repr

/-! ## The state -/

/-- The machine: the block, its SENSE pin, the HOST's program, the parameters, the last result and the schedule. -/
structure State where
  /-- The block's record `S` (R20). -/
  blk : Block
  /-- The level now on the pin SENSE (R108, R192). -/
  sense : Bool
  /-- Where the HOST's foreground stands (R160 to R171). -/
  host : HostPt
  /-- The parameters; no operation writes them (R7, R213). -/
  par : Params
  /-- What the operation just performed returned (R71, R72). -/
  ret : Ret
  /-- What the agents do next, oldest first (R9). -/
  arrivals : List Arrival
  deriving DecidableEq, Repr

/-- There is no fault: "The block raises no exception, trap, fault or bus error, for any operation in any state"
(R180). Nothing raises one; that no constructor exists is safe and unsafe alike: it is the rule. -/
inductive Fault where
  deriving DecidableEq, Repr

/-- The reasons a step has no meaning. -/
inductive Refusal where
  /-- Raised by an arm of `exec` whose instruction has no meaning yet; no arm raises it. Safe. -/
  | notModelled (mnemonic : String)
  deriving DecidableEq, Repr

/-- The record after `RESET`, given the level of the pin at that moment (R35, R210). -/
def Block.reset (sense : Bool) : Block where
  dir := .disabled
  pos := 0
  posmax := 0
  postgt := 0
  tot := 0
  runt := 0
  ticken := false
  senseQ := sense

/-- The machine right after reset (R35): the record all zero; the pin's level and the parameters are free values
(log 3, log 4); no sequence runs and nothing has arrived yet (log 1, log 12). -/
def State.reset : State where
  blk := Block.reset Config.senseAtPowerUp
  sense := Config.senseAtPowerUp
  host := .idle
  par := Config.params
  ret := .nothing
  arrivals := []

end Sys2Proof.Machine
end

