-- ==== Sys2Proof/Machine/Operands.lean ====
section
/-!
DEFINITION. The arithmetic primitives of R12 and the signedness of R11. The only operand form of the block is a
whole 16-bit `DATA` word, "not sign-extended, not zero-extended, not scaled, not shifted" (R73).
-/

namespace Sys2Proof.Machine

/-- `s(v)`: the signed reading of a pattern (R11, R12). -/
def sgn (v : Word) : Int := v.toInt

/-- `wrap(n)`: the pattern of an integer, `n mod 2^W` (R12). -/
def wrap (n : Int) : Word := BitVec.ofInt 16 n

/-- `sext_N(v)` (R12); no rule of the block uses it. -/
def sextTo (n : Nat) (v : Word) : BitVec n := v.signExtend n

/-- `zext_N(v)` (R12); no rule of the block uses it. -/
def zextTo (n : Nat) (v : Word) : BitVec n := v.zeroExtend n

/-- `a <s b` (R12). -/
def ltS (a b : Word) : Bool := decide (sgn a < sgn b)

/-- `a <=s b` (R12). -/
def leS (a b : Word) : Bool := decide (sgn a ≤ sgn b)

/-- `a >=s b` (R12). -/
def geS (a b : Word) : Bool := leS b a

/-- `a >s b` (R12, R165). -/
def gtS (a b : Word) : Bool := ltS b a

/-- `a >u b` (R12). -/
def gtU (a b : Word) : Bool := decide (b.toNat < a.toNat)

/-- `wrap(v + 1)` of an unsigned counter (R25, R26). -/
def succU (v : Word) : Word := wrap (Int.ofNat v.toNat + 1)

end Sys2Proof.Machine
end

