-- ==== Sys2Proof/Machine/Flags.lean ====
section
/-!
DEFINITION. The block "has no condition-code register" (R31): what stands here are the three predicates over the
record (R31), the four outputs (R29) and the status word (R75).
-/

namespace Sys2Proof.Machine

/-- The code of a direction: Disabled 0, Opening 1, Closing 2 (R21). -/
def Dir.code : Dir → BitVec 2
  | .disabled => 0
  | .opening => 1
  | .closing => 2

/-- The direction an `enable` drives in (R90). -/
def Drive.dir : Drive → Dir
  | .opening => .opening
  | .closing => .closing

/-- `running`: `S.DIR != Disabled` (R31). -/
def Block.running (b : Block) : Bool := decide (b.dir ≠ .disabled)

/-- `calibrated`: `S.POSMAX != 0`, whatever its sign (R31, R23). -/
def Block.calibrated (b : Block) : Bool := decide (b.posmax ≠ 0)

/-- `arrived`: the target is reached or passed in the direction of the drive (R31). -/
def Block.arrived (b : Block) : Bool :=
  (decide (b.dir = .opening) && geS b.pos b.postgt) || (decide (b.dir = .closing) && leS b.pos b.postgt)

/-- Output `DRV_OPEN` (R29). -/
def Block.drvOpen (b : Block) : Bool := decide (b.dir = .opening)

/-- Output `DRV_CLOSE` (R29). -/
def Block.drvClose (b : Block) : Bool := decide (b.dir = .closing)

/-- Output `ACTIVE`, the status indicator (R29, R97). -/
def Block.active (b : Block) : Bool := b.running

/-- Output `TICK_REQ` (R29). -/
def Block.tickReq (b : Block) : Bool := b.ticken

/-- The status word: `{0[15:6], TICKEN, ACTIVE, DRV_CLOSE, DRV_OPEN, DIR[1:0]}` (R75, R140). -/
def Block.status (b : Block) : Word :=
  (0 : BitVec 10) ++ (BitVec.ofBool b.ticken ++ (BitVec.ofBool b.running
    ++ (BitVec.ofBool b.drvClose ++ (BitVec.ofBool b.drvOpen ++ b.dir.code))))

end Sys2Proof.Machine
end

