-- ==== Sys2Proof/Machine/Ops.lean ====
section
/-!
DEFINITION. The operations the instruction meanings share: the two state changes of the Motor Driver (R90, R93),
the zeroing of `POS` (R106), the register space's read and write (R51, R54, R55), and the completion of an
operation. TAKING AN EXCEPTION and the return from one have no operation here because neither exists: "Trap entry
...: there is none" (R187), "there is no return operation and no nesting" (R188).
-/

namespace Sys2Proof.Machine

/-! ## State changes of the record -/

/-- `enable_effect(d)` (R90): no change at all in the direction already set, else the drive starts afresh. -/
def enableEffect (d : Drive) (b : Block) : Block :=
  if b.dir = d.dir then b else { b with dir := d.dir, tot := 0, runt := 0, ticken := true }

/-- `disable_effect()`: the one way to stop the motor; "Nothing else is written" (R93, R98). -/
def disableEffect (b : Block) : Block := { b with dir := .disabled }

/-- `S.POS <- 0` (R106). -/
def zeroPos (b : Block) : Block := { b with pos := 0 }

/-! ## The register space (R50, R51) -/

/-- `MemRead(a, 1)`: the "read returns" column of R51 (R54). -/
def memRead (a : Addr) (b : Block) : Word :=
  if a = 0 then b.status
  else if a = 1 then b.pos
  else if a = 2 then b.posmax
  else if a = 3 then b.postgt
  else if a = 4 then b.tot
  else if a = 5 then b.runt
  else 0x0000

/-- The command a write to `CSR` performs, by the whole data word (R74); any other value does nothing (R151). -/
def command (d : Word) (b : Block) : Block :=
  if d = 0x0001 then enableEffect .opening b
  else if d = 0x0002 then enableEffect .closing b
  else if d = 0x0003 then disableEffect b
  else if d = 0x0004 then zeroPos b
  else b

/-- `MemWrite(a, 1, v)`: the "write does" column of R51 (R55). -/
def memWrite (a : Addr) (v : Word) (b : Block) : Block :=
  if a = 0 then command v b
  else if a = 2 then { b with posmax := v }
  else if a = 3 then { b with postgt := v }
  else b

/-! ## The end of an operation -/

/-- An operation is over: the record it leaves, and what it returns. All of it happens in one atomic step (R9). -/
def State.complete (b : Block) (r : Ret) (s : State) : State := { s with blk := b, ret := r }

/-- The word the HOST takes from a read it has just performed. It is asked only after a read, and every read
returns a word (R71). -/
def Ret.word : Ret → Word
  | .q w => w
  | .nothing => 0
  | .k _ => 0

/-- The schedule of a state, replaced. -/
def State.withArrivals (l : List Arrival) (s : State) : State := { s with arrivals := l }

/-- What is left of an instant stands first in the schedule; an instant with nothing left is over (R186). -/
def State.pushRest (e : EvVec) (b : Option BusWord) (s : State) : State :=
  if e = 0 ∧ b = none then s else s.withArrivals (.instant e b :: s.arrivals)

end Sys2Proof.Machine
end

