-- ==== Sys2Proof/Machine/Driver.lean ====
section
/-!
DEFINITION. The Motor Driver: `ENABLE.O`, `ENABLE.C`, `DISABLE`, `NOP` (40_motor_driver.md).
-/

namespace Sys2Proof.Machine

/-- `ENABLE.O` (R91): `enable_effect(Opening)`; a drive the other way is reversed in one step (R94). -/
def execEnableO (s : State) : Host.Outcome State Fault Refusal :=
  .next (s.complete (enableEffect .opening s.blk) .nothing)

/-- `ENABLE.C` (R92): `enable_effect(Closing)`; a drive the other way is reversed in one step (R94). -/
def execEnableC (s : State) : Host.Outcome State Fault Refusal :=
  .next (s.complete (enableEffect .closing s.blk) .nothing)

/-- `DISABLE` (R93): `disable_effect()`. -/
def execDisable (s : State) : Host.Outcome State Fault Refusal :=
  .next (s.complete (disableEffect s.blk) .nothing)

/-- `NOP` (R95): "no field changes". -/
def execNop (s : State) : Host.Outcome State Fault Refusal :=
  .next (s.complete s.blk .nothing)

end Sys2Proof.Machine
end

