-- ==== Sys2Proof/Machine/Pulse.lean ====
section
/-!
DEFINITION. The Pulse Counter: `EDGE`, `ZPOS` (41_pulse_counter.md).
-/

namespace Sys2Proof.Machine

/-- The effect of one edge on the record (R105): `POS` moves by one in the direction of the drive, and not at all
while Disabled; `TOT` is cleared "in all three cases". `SENSE_Q` is the sampler's (R108, log 5). -/
def edgeEffect (b : Block) : Block :=
  match b.dir with
  | .opening => { b with pos := wrap (sgn b.pos + 1), tot := 0 }
  | .closing => { b with pos := wrap (sgn b.pos - 1), tot := 0 }
  | .disabled => { b with tot := 0 }

/-- `EDGE` (R105). -/
def execEdge (s : State) : Host.Outcome State Fault Refusal :=
  .next (s.complete (edgeEffect s.blk) .nothing)

/-- `ZPOS` (R106): in any state; "Nothing else is written, `TOT` included". -/
def execZpos (s : State) : Host.Outcome State Fault Refusal :=
  .next (s.complete (zeroPos s.blk) .nothing)

end Sys2Proof.Machine
end

