-- ==== Sys2Proof/Machine/Registers.lean ====
section
/-!
DEFINITION. The HOST's register reads and writes, `RD.*` and `WR.*` (44_register_access.md).
-/

namespace Sys2Proof.Machine

/-! ## Reads: "no read changes any state" (R54) -/

/-- `RD.CSR` (R140). -/
def execRdCsr (s : State) : Host.Outcome State Fault Refusal :=
  .next (s.complete s.blk (.q s.blk.status))

/-- `RD.POS` (R141). -/
def execRdPos (s : State) : Host.Outcome State Fault Refusal :=
  .next (s.complete s.blk (.q s.blk.pos))

/-- `RD.POSMAX` (R142). -/
def execRdPosmax (s : State) : Host.Outcome State Fault Refusal :=
  .next (s.complete s.blk (.q s.blk.posmax))

/-- `RD.POSTGT` (R143). -/
def execRdPostgt (s : State) : Host.Outcome State Fault Refusal :=
  .next (s.complete s.blk (.q s.blk.postgt))

/-- `RD.TOT` (R144): "the read does not clear the counter". -/
def execRdTot (s : State) : Host.Outcome State Fault Refusal :=
  .next (s.complete s.blk (.q s.blk.tot))

/-- `RD.RUNT` (R145). -/
def execRdRunt (s : State) : Host.Outcome State Fault Refusal :=
  .next (s.complete s.blk (.q s.blk.runt))

/-- `RD.RSV a` (R146): `Q <- 0x0000` (log 8). -/
def execRdRsv (_a : Addr) (s : State) : Host.Outcome State Fault Refusal :=
  .next (s.complete s.blk (.q 0x0000))

/-! ## Writes that change state -/

/-- `WR.POSMAX v` (R147): in any state, any pattern (log 10). -/
def execWrPosmax (v : Word) (s : State) : Host.Outcome State Fault Refusal :=
  .next (s.complete { s.blk with posmax := v } .nothing)

/-- `WR.POSTGT v` (R148): in any state, not clamped (log 10). -/
def execWrPostgt (v : Word) (s : State) : Host.Outcome State Fault Refusal :=
  .next (s.complete { s.blk with postgt := v } .nothing)

/-! ## Writes that change nothing -/

/-- `WR.POS v` (R149): "the write is dropped silently". -/
def execWrPos (_v : Word) (s : State) : Host.Outcome State Fault Refusal :=
  .next (s.complete s.blk .nothing)

/-- `WR.TOT v` (R149). -/
def execWrTot (_v : Word) (s : State) : Host.Outcome State Fault Refusal :=
  .next (s.complete s.blk .nothing)

/-- `WR.RUNT v` (R149). -/
def execWrRunt (_v : Word) (s : State) : Host.Outcome State Fault Refusal :=
  .next (s.complete s.blk .nothing)

/-- `WR.RSV a v` (R150): "no field changes" (log 8). -/
def execWrRsv (_a : Addr) (_v : Word) (s : State) : Host.Outcome State Fault Refusal :=
  .next (s.complete s.blk .nothing)

/-- `WR.CSR.RSV v` (R151): "no field changes; in particular the motor is neither started nor stopped" (log 8). -/
def execWrCsrRsv (_v : Word) (s : State) : Host.Outcome State Fault Refusal :=
  .next (s.complete s.blk .nothing)

end Sys2Proof.Machine
end

