-- ==== Sys2Proof/Machine/Reset.lean ====
section
/-!
DEFINITION. `RESET` (R210, 70_reset_and_hazards.md).
-/

namespace Sys2Proof.Machine

/-- `RESET` (R210): every field of the record, `SENSE_Q` to the current level of SENSE. The parameters "are
constants, not registers" (R213) and stay. -/
def execReset (s : State) : Host.Outcome State Fault Refusal :=
  .next (s.complete (Block.reset s.sense) .nothing)

end Sys2Proof.Machine
end

