-- ==== Sys2Proof/Machine/Stall.lean ====
section
/-!
DEFINITION. The Stall Detector, step 1 of `TICK` (43_stall_detector.md).
-/

namespace Sys2Proof.Machine

/-- Step 1 of `TICK` (R130): `TOT` is incremented without condition, and the new value is compared, strictly. -/
def stallStep (threshold : Word) (b : Block) : Block :=
  let counted := { b with tot := succU b.tot }
  if gtU counted.tot threshold then disableEffect counted else counted

end Sys2Proof.Machine
end

