-- ==== Sys2Proof/Machine/Supervisor.lean ====
section
/-!
DEFINITION. The Timeout Supervisor: `TICK`, its steps 2 to 4 and the operation as a whole
(42_timeout_supervisor.md).
-/

namespace Sys2Proof.Machine

/-- Step 2 of `TICK` (R117): the test reads `DIR` as step 1 left it. -/
def runtimeStep (b : Block) : Block :=
  if b.running then { b with runt := succU b.runt } else b

/-- Step 3 of `TICK` (R118): only when calibrated, and only in the direction of the drive. -/
def arrivalStep (b : Block) : Block :=
  if b.calibrated && b.arrived then disableEffect b else b

/-- Step 4 of `TICK` (R119): `K` is whether the motor still drives, and `TICKEN` takes it. -/
def keepStep (b : Block) : Block := { b with ticken := b.running }

/-- The four steps, "each step seeing the writes of the steps before it" (R115, R116). -/
def tickEffect (threshold : Word) (b : Block) : Block :=
  keepStep (arrivalStep (runtimeStep (stallStep threshold b)))

/-- `TICK` (R115): performed in any state, `TICKEN` does not gate it (R121); it returns `K`. -/
def execTick (s : State) : Host.Outcome State Fault Refusal :=
  .next (s.complete (tickEffect s.par.stallThreshold s.blk) (.k (tickEffect s.par.stallThreshold s.blk).running))

end Sys2Proof.Machine
end

