-- ==== Sys2Proof/Machine/Dispatch.lean ====
section
/-!
DEFINITION. One arm per operation of the opcode table (R78).
-/

namespace Sys2Proof.Machine

def exec (i : Instr) (s : State) : Host.Outcome State Fault Refusal :=
  match i with
  -- events
  | .reset => Sys2Proof.Machine.execReset s
  | .edge => Sys2Proof.Machine.execEdge s
  | .tick => Sys2Proof.Machine.execTick s
  -- commands written to CSR
  | .nop => Sys2Proof.Machine.execNop s
  | .enableO => Sys2Proof.Machine.execEnableO s
  | .enableC => Sys2Proof.Machine.execEnableC s
  | .disable => Sys2Proof.Machine.execDisable s
  | .zpos => Sys2Proof.Machine.execZpos s
  | .wrCsrRsv v => Sys2Proof.Machine.execWrCsrRsv v s
  -- register writes
  | .wrPos v => Sys2Proof.Machine.execWrPos v s
  | .wrPosmax v => Sys2Proof.Machine.execWrPosmax v s
  | .wrPostgt v => Sys2Proof.Machine.execWrPostgt v s
  | .wrTot v => Sys2Proof.Machine.execWrTot v s
  | .wrRunt v => Sys2Proof.Machine.execWrRunt v s
  | .wrRsv a v => Sys2Proof.Machine.execWrRsv a v s
  -- register reads
  | .rdCsr => Sys2Proof.Machine.execRdCsr s
  | .rdPos => Sys2Proof.Machine.execRdPos s
  | .rdPosmax => Sys2Proof.Machine.execRdPosmax s
  | .rdPostgt => Sys2Proof.Machine.execRdPostgt s
  | .rdTot => Sys2Proof.Machine.execRdTot s
  | .rdRunt => Sys2Proof.Machine.execRdRunt s
  | .rdRsv a => Sys2Proof.Machine.execRdRsv a s

end Sys2Proof.Machine
end

