-- ==== Sys2Proof/Machine/HostSeq.lean ====
section
/-!
DEFINITION. The HOST's foreground sequences (45_host_sequences.md): for each point of a sequence, the transaction
issued there, and the point reached once it has returned. Between any two of them any operation of another agent
may fall (R9), because each is one turn of the schedule.
-/

namespace Sys2Proof.Machine

/-- Whether a sequence is running: the foreground blocks in it, so no other can be called (R5, log 12). -/
def HostPt.running : HostPt → Bool
  | .idle => false
  | .done _ => false
  | _ => true

/-- `ENABLE d` (R81). -/
def enableInstr : Drive → Instr
  | .opening => .enableO
  | .closing => .enableC

/-- The direction of a phase (R160, R161). -/
def PhaseOf.drive : PhaseOf → Drive
  | .own d _ => d
  | .calOpen => .opening
  | .calClose => .closing

/-- The bound of a phase, in ticks (R160, R162). -/
def PhaseOf.bound (par : Params) : PhaseOf → Word
  | .own _ max => max
  | .calOpen => par.maxOpenTicks
  | .calClose => par.maxCloseTicks

/-- Where a sequence starts. -/
def startCall : HostCall → HostPt
  | .calibrate => .calClear
  | .seek t => .skMax t
  | .phase d max => .phEnable (.own d max)
  | .waitIdle => .wait .own
  | .curPos => .curPos
  | .isCal => .isCal

/-- After a `PHASE` that returned `ok` (R160 lines 2, 4 to 7; R161). -/
def phaseReturn (ok : Bool) : PhaseOf → HostPt
  | .own _ _ => .done (.phase ok)
  | .calOpen => .calZeroOpen ok
  | .calClose => if ok then .calReadPos else .done (.calErr .runtimeExceeded)

/-- After a `WAITIDLE` (R165 line 9, R168). -/
def waitReturn : WaitOf → HostPt
  | .own => .done .waited
  | .seek => .done .sought

/-- `q[1:0] == 0`: the status word says Disabled (R161, R168). -/
def statusIdle (q : Word) : Bool := q.extractLsb' 0 2 == 0

/-- Lines 3 and 4 of `SEEK`: the target clamped into `[0, m]` (R165). -/
def clampTarget (t m : Word) : Word :=
  let low := if ltS t 0 then 0 else t
  if gtS low m then m else low

/-- Line 8 of `CALIBRATE`: `wrap(0 - s(p))` (R160). -/
def negPos (p : Word) : Word := wrap (0 - sgn p)

/-- Line 8 of `SEEK`: the direction from the position to the target (R165). -/
def seekDrive (t p : Word) : Drive := if gtS t p then .opening else .closing

/-- The transaction a point of a sequence issues. -/
def hostInstr : HostPt → Option Instr
  | .idle => none
  | .done _ => none
  | .wait _ => some .rdCsr
  | .phEnable p => some (enableInstr p.drive)
  | .phCsr _ => some .rdCsr
  | .phRunt _ => some .rdRunt
  | .phDisable _ => some .disable
  | .calClear => some (.wrPosmax 0)
  | .calZeroOpen _ => some .zpos
  | .calReadPos => some .rdPos
  | .calWriteMax m => some (.wrPosmax m)
  | .calZeroEnd _ => some .zpos
  | .calUnset => some (.wrPosmax 0)
  | .skMax _ => some .rdPosmax
  | .skPos _ => some .rdPos
  | .skTarget t _ => some (.wrPostgt t)
  | .skEnable t p => some (enableInstr (seekDrive t p))
  | .curPos => some .rdPos
  | .isCal => some .rdPosmax

/-- The point reached after a point's transaction, `q` being the word it returned if it was a read. -/
def hostNext (par : Params) (q : Word) : HostPt → HostPt
  | .idle => .idle
  | .done r => .done r
  | .wait w => if statusIdle q then waitReturn w else .wait w
  | .phEnable p => .phCsr p
  | .phCsr p => if statusIdle q then phaseReturn true p else .phRunt p
  | .phRunt p => if gtU q (p.bound par) then .phDisable p else .phCsr p
  | .phDisable p => phaseReturn false p
  | .calClear => .phEnable .calOpen
  | .calZeroOpen ok => if ok then .phEnable .calClose else .done (.calErr .runtimeExceeded)
  | .calReadPos => .calWriteMax (negPos q)
  | .calWriteMax m => .calZeroEnd m
  | .calZeroEnd m => if ltS m par.motorMinRange then .calUnset else .done .calOk
  | .calUnset => .done (.calErr .rangeTooSmall)
  | .skMax t => if q = 0 then .done .sought else .skPos (clampTarget t q)
  | .skPos t => if t = q then .done .sought else .skTarget t q
  | .skTarget t p => .skEnable t p
  | .skEnable _ _ => .wait .seek
  | .curPos => .done (.position q)
  | .isCal => .done (.isCal (decide (q ≠ 0)))

/-- How the HOST tells the outcome of a seek that drove in direction `d` to the clamped target `t` from the
position `p` it reads afterwards (R167, R182). -/
def seekOutcome (d : Drive) (t p : Word) : SeekOutcome :=
  match d with
  | .opening => if geS p t then .arrived else .stallTimeout
  | .closing => if leS p t then .arrived else .stallTimeout

end Sys2Proof.Machine
end

