-- ==== Sys2Proof/Machine/Agents.lean ====
section
/-!
DEFINITION. What each arrival does: an instant's operations one by one (R186), the SENSE pin and its sampler
(R108), the HOST's sequences (R81), power-up (R211).
-/

namespace Sys2Proof.Machine

/-- One operation of an instant, "each as its own atomic operation" (R186): the first in the order `RESET` (the
others are discarded), `EDGE`, `TICK`, `BUS`. What is left of the instant comes next. -/
def performInstant (e : EvVec) (b : Option BusWord) (s : State) : Host.Outcome State Fault Refusal :=
  if e.getLsbD 2 then exec .reset s
  else if e.getLsbD 0 then exec .edge (s.pushRest (e &&& 0b110) b)
  else if e.getLsbD 1 then exec .tick (s.pushRest 0 b)
  else
    match b with
    | some t => exec (decodeBus t) s
    | none => .next s

/-- `sample(level)` (R108): a level that differs from `SENSE_Q` is stored there and is one `EDGE`. -/
def samplePin (s : State) : Host.Outcome State Fault Refusal :=
  if s.sense = s.blk.senseQ then .next s
  else exec .edge { s with blk := { s.blk with senseQ := s.sense } }

/-- The foreground calls a sequence; while one runs it is blocked in it and makes no call (log 12). -/
def callHost (c : HostCall) (s : State) : State :=
  if s.host.running then s else { s with host := startCall c }

/-- One turn of the foreground: it issues the transaction of its point and moves on with what came back. -/
def hostTurn (s : State) : Host.Outcome State Fault Refusal :=
  match hostInstr s.host with
  | none => .next s
  | some i =>
    match exec i s with
    | .next t => .next { t with host := hostNext s.par t.ret.word s.host }
    | .fault r => .fault r
    | .refused r => .refused r

/-- What one arrival does to the state whose schedule no longer holds it. -/
def performArrival (a : Arrival) (s : State) : Host.Outcome State Fault Refusal :=
  match a with
  | .instant e b => performInstant e b s
  | .pin level => .next { s with sense := level }
  | .sample => samplePin s
  | .call c => .next (callHost c s)
  | .turn => hostTurn s
  | .powerUp => exec .reset { s with host := .idle }

/-- The arrival that carries a word (R70). -/
def arrivalOf : OpWord → Arrival
  | .bus t => .instant 0 (some t)
  | .ev e => .instant e none

/-- The arrival that carries a numbered word; bits its format does not have are cut off. -/
def arrivalOfNumbered (nbits w : Nat) : Arrival :=
  if nbits ≤ 8 then .instant (BitVec.ofNat 3 w) none else .instant 0 (some (BitVec.ofNat 20 w))

end Sys2Proof.Machine
end

