-- ==== Sys2Proof/Machine/Step.lean ====
section
/-!
DEFINITION. One step: the oldest arrival is taken from the schedule and performed (R9); with none the block waits
and keeps its state (log 2).
-/

namespace Sys2Proof.Machine

/-- One atomic step of the machine (R9). -/
def step (s : State) : Host.Outcome State Fault Refusal :=
  match s.arrivals with
  | [] => .next s
  | a :: rest => performArrival a (s.withArrivals rest)

/-- The state in which the numbered word is the very next thing to arrive; the rest of the schedule follows it. -/
def State.withFetchWord (s : State) (nbits w : Nat) : State :=
  s.withArrivals (arrivalOfNumbered nbits w :: s.arrivals)

end Sys2Proof.Machine
end

