-- ==== Sys2Proof/Safety.lean ====
section
/-!
DEFINITION. The terms claims use: runs (R9), the invariant of the reachable states (R36, R132), and the kinds of
schedule and operation that claims speak of.
-/

namespace Sys2Proof.Machine

/-! ## Runs -/

/-- `n` steps, stopping where a step stops. -/
def runSteps : Nat → State → Host.Outcome State Fault Refusal
  | 0, s => .next s
  | n + 1, s =>
    match step s with
    | .next t => runSteps n t
    | .fault r => .fault r
    | .refused r => .refused r

/-- A sequence of operations performed one after another, an execution in the sense of R9. -/
def runOps : List Instr → State → Host.Outcome State Fault Refusal
  | [], s => .next s
  | i :: ops, s =>
    match exec i s with
    | .next t => runOps ops t
    | .fault r => .fault r
    | .refused r => .refused r

/-! ## The invariant of the reachable states -/

/-- A safe state: the parameters are inside R8, and while the motor drives the tick request is up (R36 (b)) and
the stall count has not passed the threshold (R132). That `DIR` is never 3 and that the two drive outputs are
never both 1 (R36 (a), (c)) hold of every term of type `Block`. -/
abbrev Safe (s : State) : Prop :=
  s.par.Valid
    ∧ (s.blk.dir ≠ .disabled → s.blk.ticken = true)
    ∧ (s.blk.dir ≠ .disabled → s.blk.tot.toNat ≤ s.par.stallThreshold.toNat)

/-! ## Kinds of operation and of arrival -/

/-- The reads (R54). -/
def isRead : Instr → Bool
  | .rdCsr | .rdPos | .rdPosmax | .rdPostgt | .rdTot | .rdRunt | .rdRsv _ => true
  | .reset | .edge | .tick | .nop | .enableO | .enableC | .disable | .zpos => false
  | .wrCsrRsv _ | .wrPos _ | .wrPosmax _ | .wrPostgt _ | .wrTot _ | .wrRunt _ | .wrRsv _ _ => false

/-- The operations that leave the stall count to the ticks: none of them is an `EDGE`, an `ENABLE` or `RESET`
(the three that clear `TOT`, R132). -/
def leavesStallCount : Instr → Bool
  | .reset | .edge | .enableO | .enableC => false
  | .tick | .nop | .disable | .zpos => true
  | .wrCsrRsv _ | .wrPos _ | .wrPosmax _ | .wrPostgt _ | .wrTot _ | .wrRunt _ | .wrRsv _ _ => true
  | .rdCsr | .rdPos | .rdPosmax | .rdPostgt | .rdTot | .rdRunt | .rdRsv _ => true

/-- What may fall between two lines of a HOST sequence (45_host_sequences.md: "any number of `EDGE` and `TICK`
operations"), and the sequence's own turns: edges, ticks, the pin and its sampler. -/
def whileSequenceRuns : Arrival → Bool
  | .instant e b => !e.getLsbD 2 && b.isNone
  | .pin _ => true
  | .sample => true
  | .turn => true
  | .call _ => false
  | .powerUp => false

end Sys2Proof.Machine
end

