-- ==== Sys2Proof/Certificates/Slice0/Obligations.lean ====
section
/-!
DEFINITION. The statements about the model, for the provers. Each formalises a numbered rule of spec/ or, where it
says so, an inference the spec marks as its own or a choice of the model (log entries).
-/

open Sys2Proof Sys2Proof.Machine

/-! ## Encoding -/

/-- Words written out from the encodings of R71, R72, R74 and R78 decode to the operations they stand for (the
decode checks of 95_test_vectors.md, section 2.4). -/
def Obligations.SampleWordsDecodeAsEncoded : Prop :=
  decodeWord (.ev 0b010) = .ok .tick
    ∧ decodeWord (.bus 0x80003) = .ok .disable
    ∧ decodeWord (.bus 0x80101) = .ok (.wrCsrRsv 0x0101)
    ∧ decodeWord (.bus 0x90000) = .ok (.wrPos 0)
    ∧ decodeWord (.bus 0xA012C) = .ok (.wrPosmax 300)
    ∧ decodeWord (.bus 0xBFFFF) = .ok (.wrPostgt (-1))
    ∧ decodeWord (.bus 0x0BEEF) = .ok .rdCsr
    ∧ decodeWord (.bus 0x70000) = .ok (.rdRsv 7)
    ∧ decodeWord (.bus 0xFFFFF) = .ok (.wrRsv 7 0xFFFF)

/-- Decode and encode agree: every well-formed instruction, with every operand value, is what its word decodes
to. -/
def Obligations.EncodedInstructionDecodesBack : Prop :=
  ∀ i : Instr, WellFormed i = true → decodeWord (encode i) = .ok i

/-- The other direction: every bus word is one well-formed operation, and encoding that operation gives the word
back, but for the `DATA` of a read, which is not decoded (R71). -/
def Obligations.EveryBusWordEncodesBack : Prop :=
  ∀ t : BusWord,
    WellFormed (decodeBus t) = true
      ∧ encode (decodeBus t) = .bus (if busWr t = true then t else mkBus false (busAddr t) 0)

/-- R76: the decoder picks the first row of the table with `(T and mask) == match`, for every one of the `2^20`
words; and, in words, a read is decoded by its address and a write by its address and, at address 0, its data. -/
def Obligations.BusDecodeIsFirstMatchingRow : Prop :=
  (∀ t : BusWord, (firstRow t).map BusRow.mnemonic = some (mnemonicOf (decodeBus t)))
    ∧ (∀ d : Word,
        decodeBus (mkBus false 0 d) = .rdCsr ∧ decodeBus (mkBus false 1 d) = .rdPos
          ∧ decodeBus (mkBus false 2 d) = .rdPosmax ∧ decodeBus (mkBus false 3 d) = .rdPostgt
          ∧ decodeBus (mkBus false 4 d) = .rdTot ∧ decodeBus (mkBus false 5 d) = .rdRunt
          ∧ decodeBus (mkBus false 6 d) = .rdRsv 6 ∧ decodeBus (mkBus false 7 d) = .rdRsv 7)
    ∧ (∀ d : Word,
        decodeBus (mkBus true 1 d) = .wrPos d ∧ decodeBus (mkBus true 2 d) = .wrPosmax d
          ∧ decodeBus (mkBus true 3 d) = .wrPostgt d ∧ decodeBus (mkBus true 4 d) = .wrTot d
          ∧ decodeBus (mkBus true 5 d) = .wrRunt d ∧ decodeBus (mkBus true 6 d) = .wrRsv 6 d
          ∧ decodeBus (mkBus true 7 d) = .wrRsv 7 d)
    ∧ decodeBus (mkBus true 0 0) = .nop ∧ decodeBus (mkBus true 0 1) = .enableO
    ∧ decodeBus (mkBus true 0 2) = .enableC ∧ decodeBus (mkBus true 0 3) = .disable
    ∧ decodeBus (mkBus true 0 4) = .zpos
    ∧ (∀ d : Word, 5 ≤ d.toNat → decodeBus (mkBus true 0 d) = .wrCsrRsv d)

/-- R77: the operations of every event vector. -/
def Obligations.EventVectorOperations : Prop :=
  (∀ e : EvVec, e.getLsbD 2 = true → decodeEv e = [.reset])
    ∧ decodeEv 0b001 = [.edge]
    ∧ decodeEv 0b010 = [.tick]
    ∧ decodeEv 0b011 = [.edge, .tick]
    ∧ decodeEv 0b000 = []

/-! ## The step -/

/-- A step runs the decoded instruction: when the oldest arrival is a word that decodes to one operation `i`, the
step is `exec i` on the state whose schedule no longer holds that word. -/
def Obligations.StepRunsDecodedOperation : Prop :=
  ∀ (s : State) (w : OpWord) (i : Instr) (rest : List Arrival),
    s.arrivals = arrivalOf w :: rest → decodeWord w = .ok i → step s = exec i (s.withArrivals rest)

/-- A word placed by `withFetchWord` is what the very next step runs, on the state as it was. -/
def Obligations.PlacedWordRunsNext : Prop :=
  ∀ (s : State) (nbits w : Nat) (i : Instr),
    decodeTableWord nbits w = some i → step (s.withFetchWord nbits w) = exec i s

/-- R186: the operations that arrive in one instant are performed one by one in the order `RESET` (and then the
others are discarded), `EDGE`, `TICK`, the HOST's transaction. -/
def Obligations.InstantRunsInPriorityOrder : Prop :=
  ∀ (s : State) (e : EvVec) (b : Option BusWord) (rest : List Arrival),
    s.arrivals = .instant e b :: rest →
      (e.getLsbD 2 = true → step s = exec .reset (s.withArrivals rest))
        ∧ (e.getLsbD 2 = false → ∀ ops : List Instr,
            ops = (if e.getLsbD 0 = true then [Instr.edge] else [])
              ++ ((if e.getLsbD 1 = true then [Instr.tick] else []) ++ (b.map decodeBus).toList) →
            ops ≠ [] → runSteps ops.length s = runOps ops (s.withArrivals rest))

/-- The order of an edge and a tick is observable (vectors T20 and T21): at the stall threshold an edge before the
tick keeps the motor running and is counted, an edge after it is lost. -/
def Obligations.EdgeTickOrderIsObservable : Prop :=
  ∀ s : State, Safe s → s.blk.dir = .opening → s.blk.posmax = 0 →
    s.blk.tot = s.par.stallThreshold → 1 ≤ s.par.stallThreshold.toNat →
    ∃ t u, runOps [.edge, .tick] s = .next t ∧ runOps [.tick, .edge] s = .next u
      ∧ t.blk.dir = .opening ∧ t.blk.pos = s.blk.pos + 1
      ∧ u.blk.dir = .disabled ∧ u.blk.pos = s.blk.pos

/-- R180: every operation completes and leaves a state, in every state; so does every step. -/
def Obligations.EveryOperationCompletes : Prop :=
  (∀ (i : Instr) (s : State), ∃ t, exec i s = .next t) ∧ (∀ s : State, ∃ t, step s = .next t)

/-- An operation writes the block's record and its result, nothing else; and no step of any kind changes the
parameters ("constants, not registers"). The state's layout outside the record is the model's (log 1, 3, 6). -/
def Obligations.OperationsTouchOnlyTheBlock : Prop :=
  (∀ (i : Instr) (s t : State), exec i s = .next t →
      t.sense = s.sense ∧ t.host = s.host ∧ t.par = s.par ∧ t.arrivals = s.arrivals)
    ∧ (∀ s t : State, step s = .next t → t.par = s.par)

/-- With nothing in the schedule the block waits and keeps its state (the model's choice, log 2). -/
def Obligations.EmptyScheduleKeepsState : Prop :=
  ∀ s : State, s.arrivals = [] → step s = .next s

/-! ## Reset -/

/-- R210: `RESET` writes every field of the record, in every state, and nothing else but the result; every event
vector with bit 2 set is `RESET`. -/
def Obligations.ResetWritesEveryField : Prop :=
  (∀ e : EvVec, e.getLsbD 2 = true → decodeWord (.ev e) = .ok .reset)
    ∧ ∀ s : State, exec .reset s = .next { s with
        blk := { dir := .disabled, pos := 0, posmax := 0, postgt := 0, tot := 0, runt := 0, ticken := false,
                 senseQ := s.sense }
        ret := .nothing }

/-- R35: the value of every field and of every output after `RESET`, from every state; and the machine comes up in
that state. -/
def Obligations.ResetStateValues : Prop :=
  ∀ (b : Block) (level : Bool),
    (b = State.reset.blk ∧ level = State.reset.sense)
        ∨ (∃ s t : State, exec .reset s = .next t ∧ b = t.blk ∧ level = s.sense) →
      b.dir = .disabled ∧ b.pos = 0 ∧ b.posmax = 0 ∧ b.calibrated = false ∧ b.postgt = 0 ∧ b.tot = 0 ∧ b.runt = 0
        ∧ b.ticken = false ∧ b.senseQ = level
        ∧ b.drvOpen = false ∧ b.drvClose = false ∧ b.active = false ∧ b.tickReq = false

/-- Power-up is `RESET` of the block, and the HOST's software starts afresh (the second half is the model's
choice, log 12). -/
def Obligations.PowerUpResetsBlockAndHost : Prop :=
  ∀ (s : State) (rest : List Arrival), s.arrivals = .powerUp :: rest →
    ∃ t, step s = .next t ∧ t.blk = Block.reset s.sense ∧ t.host = .idle ∧ t.arrivals = rest
      ∧ t.sense = s.sense ∧ t.par = s.par

/-! ## Motor Driver -/

/-- R90: the enable effect, for both directions, with its frame. -/
def Obligations.EnableEffectOnTheRecord : Prop :=
  ∀ (s : State) (i : Instr) (d : Dir), (i = .enableO ∧ d = .opening) ∨ (i = .enableC ∧ d = .closing) →
    (s.blk.dir = d → exec i s = .next { s with ret := .nothing })
      ∧ (s.blk.dir ≠ d → exec i s = .next { s with
          blk := { s.blk with dir := d, tot := 0, runt := 0, ticken := true }
          ret := .nothing })

/-- R91: `ENABLE.O`, its word, its effect and its three corner cases. -/
def Obligations.EnableOpeningCommand : Prop :=
  decodeWord (.bus 0x80001) = .ok .enableO
    ∧ ∀ s : State, ∃ t, exec .enableO s = .next t
      ∧ t = { s with blk := t.blk, ret := .nothing }
      ∧ t.blk.drvOpen = true ∧ t.blk.drvClose = false ∧ t.blk.active = true
      ∧ (s.blk.dir = .opening → t.blk = s.blk)
      ∧ (s.blk.dir ≠ .opening →
          t.blk = { s.blk with dir := .opening, tot := 0, runt := 0, ticken := true } ∧ t.blk.status = 0x0035
            ∧ (s.blk.posmax ≠ 0 → s.blk.postgt.toInt ≤ s.blk.pos.toInt →
                ∃ u, exec .tick t = .next u ∧ u.blk.dir = .disabled))

/-- R92: `ENABLE.C`, its word, its effect and its three corner cases. -/
def Obligations.EnableClosingCommand : Prop :=
  decodeWord (.bus 0x80002) = .ok .enableC
    ∧ ∀ s : State, ∃ t, exec .enableC s = .next t
      ∧ t = { s with blk := t.blk, ret := .nothing }
      ∧ t.blk.drvOpen = false ∧ t.blk.drvClose = true ∧ t.blk.active = true
      ∧ (s.blk.dir = .closing → t.blk = s.blk)
      ∧ (s.blk.dir ≠ .closing →
          t.blk = { s.blk with dir := .closing, tot := 0, runt := 0, ticken := true } ∧ t.blk.status = 0x003A
            ∧ (s.blk.posmax ≠ 0 → s.blk.pos.toInt ≤ s.blk.postgt.toInt →
                ∃ u, exec .tick t = .next u ∧ u.blk.dir = .disabled))

/-- R94: a drive is reversed in one step, with both counters cleared and `TICKEN` left at 1; one output is
asserted before, the other after, never both. -/
def Obligations.ReversalInOneStep : Prop :=
  ∀ (s : State) (i : Instr) (d d' : Dir),
    (i = .enableC ∧ d = .opening ∧ d' = .closing) ∨ (i = .enableO ∧ d = .closing ∧ d' = .opening) →
    s.blk.dir = d → s.blk.ticken = true →
    ∃ t, exec i s = .next t
      ∧ t = { s with blk := { s.blk with dir := d', tot := 0, runt := 0 }, ret := .nothing }
      ∧ t.blk.drvOpen = s.blk.drvClose ∧ t.blk.drvClose = s.blk.drvOpen
      ∧ s.blk.drvOpen ≠ s.blk.drvClose

/-- R223: `ENABLE` in the direction already set changes nothing, so it neither extends a drive nor restarts the
count; `DISABLE` and then `ENABLE` does clear both counters. -/
def Obligations.SameDirectionEnableDoesNothing : Prop :=
  ∀ (s : State) (i : Instr) (d : Dir), (i = .enableO ∧ d = .opening) ∨ (i = .enableC ∧ d = .closing) →
    s.blk.dir = d →
      exec i s = .next { s with ret := .nothing }
        ∧ runOps [.disable, i] s = .next { s with
            blk := { s.blk with tot := 0, runt := 0, ticken := true }, ret := .nothing }

/-- `DISABLE` writes `DIR` alone, is idempotent, and turns both drive outputs off (40_motor_driver.md, section
2). -/
def Obligations.DisableWritesDirectionAlone : Prop :=
  decodeWord (.bus 0x80003) = .ok .disable
    ∧ ∀ s : State, ∃ t, exec .disable s = .next t
      ∧ t = { s with blk := { s.blk with dir := .disabled }, ret := .nothing }
      ∧ t.blk.drvOpen = false ∧ t.blk.drvClose = false ∧ t.blk.active = false
      ∧ exec .disable t = .next t
      ∧ (s.blk.dir = .disabled → t.blk = s.blk)

/-- A tick and the HOST's `DISABLE` in either order leave the motor off. If the tick stalls (or the motor was off)
the two orders leave the same record; if the tick would stop the motor on arrival they differ in `RUNT`, which
counts the tick only if the tick comes first; if the tick would not stop it they differ in `TICKEN` too. This is
what remains of the sentence "either order gives the same state" (40_motor_driver.md, section 2; log 16). -/
def Obligations.DisableAndTickInEitherOrder : Prop :=
  ∀ (s : State) (n : Nat), n = (s.blk.tot.toNat + 1) % 2 ^ 16 →
    ∃ t u, runOps [.tick, .disable] s = .next t ∧ runOps [.disable, .tick] s = .next u
      ∧ t.blk.dir = .disabled ∧ u.blk.dir = .disabled
      ∧ (s.blk.dir = .disabled ∨ s.par.stallThreshold.toNat < n → t.blk = u.blk)
      ∧ (s.blk.dir ≠ .disabled → n ≤ s.par.stallThreshold.toNat → s.blk.posmax ≠ 0 → s.blk.arrived = true →
          t.blk = { u.blk with runt := u.blk.runt + 1 })
      ∧ (s.blk.dir ≠ .disabled → n ≤ s.par.stallThreshold.toNat → s.blk.posmax = 0 ∨ s.blk.arrived = false →
          t.blk = { u.blk with runt := u.blk.runt + 1, ticken := true })

/-- R96: `DIR` leaves Disabled only by an `ENABLE`, and returns to it only by `DISABLE`, `RESET`, or a `TICK`
whose step 1 (stall) or step 3 (arrival) applies; the motor is powered exactly while `DIR` is not Disabled. -/
def Obligations.DriveStartsAndEndsOnlySo : Prop :=
  (∀ (i : Instr) (s t : State), exec i s = .next t →
      (s.blk.dir = .disabled → t.blk.dir ≠ .disabled → i = .enableO ∨ i = .enableC)
        ∧ (s.blk.dir ≠ .disabled → t.blk.dir = .disabled →
            i = .disable ∨ i = .reset
              ∨ (i = .tick ∧ (s.par.stallThreshold.toNat < (s.blk.tot.toNat + 1) % 2 ^ 16
                  ∨ (s.blk.posmax ≠ 0 ∧ s.blk.arrived = true)))))
    ∧ (∀ b : Block, (b.drvOpen = true ∨ b.drvClose = true) ↔ b.dir ≠ .disabled)

/-- R29: the four outputs as functions of the record; the two drive outputs are never both 1, and exactly one is 1
while the motor drives. -/
def Obligations.OutputsFollowTheRecord : Prop :=
  ∀ b : Block,
    (b.drvOpen = true ↔ b.dir = .opening) ∧ (b.drvClose = true ↔ b.dir = .closing)
      ∧ (b.active = true ↔ b.dir ≠ .disabled) ∧ b.tickReq = b.ticken
      ∧ ¬ (b.drvOpen = true ∧ b.drvClose = true)
      ∧ (b.dir ≠ .disabled → b.drvOpen ≠ b.drvClose)

/-- R95 and R149: `NOP` and the writes to the three read-only registers change no field. -/
def Obligations.IgnoredWritesChangeNothing : Prop :=
  decodeWord (.bus 0x80000) = .ok .nop
    ∧ (∀ s : State, exec .nop s = .next { s with ret := .nothing })
    ∧ (∀ v : Word, decodeWord (.bus (BitVec.ofNat 20 (0x90000 + v.toNat))) = .ok (.wrPos v)
        ∧ decodeWord (.bus (BitVec.ofNat 20 (0xC0000 + v.toNat))) = .ok (.wrTot v)
        ∧ decodeWord (.bus (BitVec.ofNat 20 (0xD0000 + v.toNat))) = .ok (.wrRunt v))
    ∧ (∀ (v : Word) (s : State), exec (.wrPos v) s = .next { s with ret := .nothing }
        ∧ exec (.wrTot v) s = .next { s with ret := .nothing }
        ∧ exec (.wrRunt v) s = .next { s with ret := .nothing })

/-- R146, R150, R151: the reserved encodings change no field, and a reserved read returns `0x0000`. R79 asks that
no claim rest on what they do: this one states their rules, and no other rests on it (log 8). -/
def Obligations.ReservedEncodingsChangeNothing : Prop :=
  (∀ t : BusWord, 0x60000 ≤ t.toNat → t.toNat ≤ 0x7FFFF →
      ∃ a, ReservedAddr a ∧ decodeWord (.bus t) = .ok (.rdRsv a))
    ∧ (∀ t : BusWord, 0xE0000 ≤ t.toNat →
      ∃ a v, ReservedAddr a ∧ decodeWord (.bus t) = .ok (.wrRsv a v))
    ∧ (∀ t : BusWord, 0x80005 ≤ t.toNat → t.toNat ≤ 0x8FFFF →
      ∃ v, ReservedCommand v ∧ decodeWord (.bus t) = .ok (.wrCsrRsv v))
    ∧ ∀ (a : Addr) (v : Word) (s : State),
      exec (.rdRsv a) s = .next { s with ret := .q 0x0000 }
        ∧ exec (.wrRsv a v) s = .next { s with ret := .nothing }
        ∧ exec (.wrCsrRsv v) s = .next { s with ret := .nothing }

/-! ## Pulse Counter -/

/-- R105: `EDGE` in the three directions, over the signed readings, with its frame and the two wraps. -/
def Obligations.EdgeMovesPositionByDirection : Prop :=
  decodeWord (.ev 0b001) = .ok .edge
    ∧ ∀ s : State, ∃ t, exec .edge s = .next t
      ∧ t = { s with blk := { s.blk with pos := t.blk.pos, tot := 0 }, ret := .nothing }
      ∧ (s.blk.dir = .opening → t.blk.pos.toInt = (s.blk.pos.toInt + 1).bmod (2 ^ 16))
      ∧ (s.blk.dir = .closing → t.blk.pos.toInt = (s.blk.pos.toInt - 1).bmod (2 ^ 16))
      ∧ (s.blk.dir = .disabled → t.blk.pos = s.blk.pos)
      ∧ (s.blk.dir = .opening → s.blk.pos = 0x7FFF → t.blk.pos = 0x8000)
      ∧ (s.blk.dir = .closing → s.blk.pos = 0x8000 → t.blk.pos = 0x7FFF)

/-- R107: with `DIR` constant, `n` edges move `POS` by exactly `n`, modulo `2^W`, in the direction of the drive; no
edge is dropped or masked in any state that drives. -/
def Obligations.EdgesCountedExactlyOnce : Prop :=
  ∀ (n : Nat) (s : State), s.blk.dir ≠ .disabled →
    ∃ t, runOps (List.replicate n .edge) s = .next t ∧ t.blk.dir = s.blk.dir
      ∧ (s.blk.dir = .opening → t.blk.pos.toInt = (s.blk.pos.toInt + n).bmod (2 ^ 16))
      ∧ (s.blk.dir = .closing → t.blk.pos.toInt = (s.blk.pos.toInt - n).bmod (2 ^ 16))

/-- Pulses after a stop are lost: any number of edges while Disabled leaves `POS` where it was and only clears
`TOT` (70_reset_and_hazards.md, section 3). -/
def Obligations.EdgesWhileDisabledAreLost : Prop :=
  ∀ (n : Nat) (s : State), s.blk.dir = .disabled →
    runOps (List.replicate (n + 1) .edge) s
      = .next { s with blk := { s.blk with tot := 0 }, ret := .nothing }

/-- R106: `ZPOS` clears `POS` in any state and writes nothing else; an edge after it counts from zero. -/
def Obligations.ZeroPositionCommand : Prop :=
  decodeWord (.bus 0x80004) = .ok .zpos
    ∧ ∀ s : State,
      exec .zpos s = .next { s with blk := { s.blk with pos := 0 }, ret := .nothing }
        ∧ (s.blk.pos = 0 → exec .zpos s = .next { s with ret := .nothing })
        ∧ ∃ t, runOps [.zpos, .edge] s = .next t
          ∧ (s.blk.dir = .opening → t.blk.pos.toInt = 1) ∧ (s.blk.dir = .closing → t.blk.pos.toInt = -1)

/-- R108: a sampled level that differs from `SENSE_Q` is stored there and is one edge; a level that does not is
nothing. -/
def Obligations.SamplerIssuesEdgeOnChange : Prop :=
  ∀ (s : State) (rest : List Arrival), s.arrivals = .sample :: rest →
    (s.sense = s.blk.senseQ → step s = .next (s.withArrivals rest))
      ∧ (s.sense ≠ s.blk.senseQ → ∃ t u, step s = .next t ∧ exec .edge s = .next u
          ∧ t = { u with blk := { u.blk with senseQ := s.sense }, arrivals := rest })

/-! ## Timeout Supervisor and Stall Detector -/

/-- R130: step 1 counts every tick, in any state, and compares the new count strictly: above the threshold the
motor is stopped and the tick is not counted as run time; at or below it step 1 does not stop the motor. The second
half is step 1 on its own: it writes `TOT` and perhaps `DIR`, nothing else. -/
def Obligations.StallStopsAboveThreshold : Prop :=
  (∀ s : State, ∃ t, exec .tick s = .next t
    ∧ t.blk.tot.toNat = (s.blk.tot.toNat + 1) % 2 ^ 16
    ∧ (s.par.stallThreshold.toNat < t.blk.tot.toNat → t.blk.dir = .disabled ∧ t.blk.runt = s.blk.runt)
    ∧ (t.blk.tot.toNat ≤ s.par.stallThreshold.toNat → ¬ (s.blk.posmax ≠ 0 ∧ s.blk.arrived = true) →
        t.blk.dir = s.blk.dir))
    ∧ ∀ (threshold : Word) (b : Block), ∃ n : Word, n.toNat = (b.tot.toNat + 1) % 2 ^ 16
      ∧ stallStep threshold b
        = { b with tot := n, dir := if threshold.toNat < n.toNat then .disabled else b.dir }

/-- R117: `RUNT` counts, modulo `2^W`, exactly the ticks on which the motor still drives after step 1. -/
def Obligations.RunTimeCountsDrivingTicks : Prop :=
  ∀ s : State, ∃ t, exec .tick s = .next t
    ∧ t.blk.runt.toNat =
      if s.blk.dir ≠ .disabled ∧ (s.blk.tot.toNat + 1) % 2 ^ 16 ≤ s.par.stallThreshold.toNat
      then (s.blk.runt.toNat + 1) % 2 ^ 16 else s.blk.runt.toNat

/-- R118: a calibrated drive that does not stall is stopped exactly when the signed `POS` has reached or passed the
signed `POSTGT` in the direction of the drive; an uncalibrated one is not stopped by step 3. -/
def Obligations.ArrivalStopsCalibratedDrive : Prop :=
  ∀ s : State, (s.blk.tot.toNat + 1) % 2 ^ 16 ≤ s.par.stallThreshold.toNat →
    ∃ t, exec .tick s = .next t
      ∧ (s.blk.posmax ≠ 0 → s.blk.dir = .opening →
          (t.blk.dir = .disabled ↔ s.blk.postgt.toInt ≤ s.blk.pos.toInt))
      ∧ (s.blk.posmax ≠ 0 → s.blk.dir = .closing →
          (t.blk.dir = .disabled ↔ s.blk.pos.toInt ≤ s.blk.postgt.toInt))
      ∧ (s.blk.posmax = 0 → t.blk.dir = s.blk.dir)

/-- R119: the result `K` is 1 exactly if the motor drives after the tick, and `TICKEN` takes it; `DISABLE` leaves
`TICKEN`, the first tick after it clears it, and once cleared it stays 0 until an effective `ENABLE` sets it again. -/
def Obligations.TickReturnsAndKeepsRequest : Prop :=
  (∀ s : State, ∃ t, exec .tick s = .next t
      ∧ t.blk.ticken = decide (t.blk.dir ≠ .disabled) ∧ t.ret = .k (decide (t.blk.dir ≠ .disabled))
      ∧ t.blk.tickReq = t.blk.ticken)
    ∧ (∀ s : State, ∃ t u, exec .disable s = .next t ∧ exec .tick t = .next u
      ∧ t.blk.ticken = s.blk.ticken ∧ u.blk.ticken = false ∧ u.ret = .k false)
    ∧ (∀ s : State, s.blk.dir = .disabled →
      ∃ t u, exec .enableO s = .next t ∧ exec .enableC s = .next u ∧ t.blk.ticken = true ∧ u.blk.ticken = true)
    ∧ (∀ (i : Instr) (s t : State), s.blk.dir = .disabled → s.blk.ticken = false → i ≠ .enableO → i ≠ .enableC →
      exec i s = .next t → t.blk.dir = .disabled ∧ t.blk.ticken = false)

/-- R115: the whole tick in its four cases: the motor off on entry, stalled in step 1, arrived in step 3, or still
driving; in each the whole next state is given. (What the sentence of R115 (d) on the end state comes to: log 16.) -/
def Obligations.TickInItsFourCases : Prop :=
  decodeWord (.ev 0b010) = .ok .tick
    ∧ ∀ (s : State) (n : Nat), n = (s.blk.tot.toNat + 1) % 2 ^ 16 →
      (s.blk.dir = .disabled → exec .tick s = .next { s with
          blk := { s.blk with tot := BitVec.ofNat 16 n, ticken := false }
          ret := .k false })
        ∧ (s.blk.dir ≠ .disabled → s.par.stallThreshold.toNat < n → exec .tick s = .next { s with
          blk := { s.blk with tot := BitVec.ofNat 16 n, dir := .disabled, ticken := false }
          ret := .k false })
        ∧ (s.blk.dir ≠ .disabled → n ≤ s.par.stallThreshold.toNat → s.blk.posmax ≠ 0 →
            ((s.blk.dir = .opening ∧ s.blk.postgt.toInt ≤ s.blk.pos.toInt)
              ∨ (s.blk.dir = .closing ∧ s.blk.pos.toInt ≤ s.blk.postgt.toInt)) →
            exec .tick s = .next { s with
              blk := { s.blk with tot := BitVec.ofNat 16 n, runt := s.blk.runt + 1, dir := .disabled, ticken := false }
              ret := .k false })
        ∧ (s.blk.dir ≠ .disabled → n ≤ s.par.stallThreshold.toNat →
            (s.blk.posmax = 0 ∨ (s.blk.dir = .opening ∧ s.blk.pos.toInt < s.blk.postgt.toInt)
              ∨ (s.blk.dir = .closing ∧ s.blk.postgt.toInt < s.blk.pos.toInt)) →
            exec .tick s = .next { s with
              blk := { s.blk with tot := BitVec.ofNat 16 n, runt := s.blk.runt + 1, ticken := true }
              ret := .k true })

/-- The stall fires on the tick after the threshold: a drive with a fresh count that is uncalibrated or has not
reached its target still drives after `k` ticks for every `k` up to the threshold, with both counters at their tick
counts, and is off after one more; that last tick is not counted in `RUNT` (the spec's inference in
43_stall_detector.md, "When the stall fires, counted in ticks"; vector S4). -/
def Obligations.StallFiresRightAfterThreshold : Prop :=
  ∀ (s : State) (k : Nat), Safe s → s.blk.dir ≠ .disabled → s.blk.tot = 0 →
    s.blk.posmax = 0 ∨ s.blk.arrived = false → k ≤ s.par.stallThreshold.toNat →
    ∃ t, runOps (List.replicate k .tick) s = .next t
      ∧ t.blk.dir = s.blk.dir ∧ t.blk.tot.toNat = k ∧ t.blk.runt = s.blk.runt + BitVec.ofNat 16 k
      ∧ (k = s.par.stallThreshold.toNat →
          ∃ u, exec .tick t = .next u ∧ u.blk.dir = .disabled ∧ u.blk.runt = t.blk.runt)

/-- Bounded driving: from every safe state, a run without `EDGE`, `ENABLE` or `RESET` (any mix of the other
operations, in any order) that holds enough ticks to carry the stall count past the threshold ends with the motor
off (the spec's inference in 43_stall_detector.md, "Bounded driving"). -/
def Obligations.DrivingIsBoundedWithoutEdges : Prop :=
  ∀ (ops : List Instr) (s : State), Safe s → ops.all leavesStallCount = true →
    s.par.stallThreshold.toNat < s.blk.tot.toNat + ops.count .tick →
    ∃ t, runOps ops s = .next t ∧ t.blk.dir = .disabled

/-- `RUNT` steers nothing in the block: two states that differ in `RUNT` alone go on, under every operation but
its own read, to results and states that differ in `RUNT` alone (42_timeout_supervisor.md, "What TICK does not
do"). -/
def Obligations.RunTimeCountSteersNothing : Prop :=
  ∀ (i : Instr) (s t : State) (r : Word), i ≠ .rdRunt → exec i s = .next t →
    ∃ u, exec i { s with blk := { s.blk with runt := r } } = .next u
      ∧ u = { t with blk := { t.blk with runt := u.blk.runt } }

/-- Overshoot: of a drive that had not reached its target at one tick and sees `n` edges before the next, without
wrapping, the next tick stops it if the target is reached, and then `POS` is past the target by at most `n` (the
spec's inference in 42_timeout_supervisor.md, "Overshoot"). -/
def Obligations.OvershootAtMostTheEdgesBetweenTicks : Prop :=
  ∀ (s : State) (n : Nat), s.blk.posmax ≠ 0 →
    (s.blk.dir = .opening → s.blk.pos.toInt < s.blk.postgt.toInt → s.blk.pos.toInt + n < 2 ^ 15 →
      ∃ t, runOps (List.replicate n .edge ++ [.tick]) s = .next t
        ∧ (t.blk.postgt.toInt ≤ t.blk.pos.toInt →
            t.blk.dir = .disabled ∧ t.blk.pos.toInt - t.blk.postgt.toInt ≤ n))
    ∧ (s.blk.dir = .closing → s.blk.postgt.toInt < s.blk.pos.toInt → -(2 ^ 15) ≤ s.blk.pos.toInt - n →
      ∃ t, runOps (List.replicate n .edge ++ [.tick]) s = .next t
        ∧ (t.blk.pos.toInt ≤ t.blk.postgt.toInt →
            t.blk.dir = .disabled ∧ t.blk.postgt.toInt - t.blk.pos.toInt ≤ n))

/-- The range property of the source does not hold for all sequences: a drive towards `POSMAX` that is one edge
short of it and sees two edges before the next tick ends beyond `POSMAX` (the spec's inference in
70_reset_and_hazards.md, "Overshoot and the range property"). -/
def Obligations.PositionCanEndBeyondRange : Prop :=
  ∀ s : State, s.blk.dir = .opening → s.blk.postgt = s.blk.posmax → 0 < s.blk.posmax.toInt →
    s.blk.posmax.toInt + 1 < 2 ^ 15 → s.blk.pos.toInt + 1 = s.blk.posmax.toInt →
    ∃ t, runOps [.edge, .edge, .tick] s = .next t ∧ t.blk.dir = .disabled
      ∧ t.blk.pos.toInt = t.blk.posmax.toInt + 1

/-! ## Invariants -/

/-- The invariant of the reachable states (10_state.md, section 4, and the bound on `TOT` of 43_stall_detector.md):
every step of every kind keeps it, from every state that has it. -/
def Obligations.StepKeepsSafe : Prop :=
  ∀ s t : State, Safe s → step s = .next t → Safe t

/-- The invariant holds after reset. -/
def Obligations.ResetStateIsSafe : Prop := Safe State.reset

/-- Which operation writes which field, and to what (the table of R33). That no operation but `RESET` writes
`SENSE_Q`, and that the SENSE agent's write of it is its sampler's, is the model's reading (log 5): the table's column
"SENSE (`EDGE`)" gives the write to `EDGE`. -/
def Obligations.WritersOfEachField : Prop :=
  (∀ (i : Instr) (s t : State), exec i s = .next t →
      (t.blk.dir ≠ s.blk.dir → i = .enableO ∨ i = .enableC ∨ i = .disable
          ∨ (i = .tick ∧ t.blk.dir = .disabled) ∨ (i = .reset ∧ t.blk.dir = .disabled))
        ∧ (t.blk.pos ≠ s.blk.pos → (i = .zpos ∧ t.blk.pos = 0)
          ∨ (i = .edge ∧ (t.blk.pos = s.blk.pos + 1 ∨ t.blk.pos = s.blk.pos - 1)) ∨ (i = .reset ∧ t.blk.pos = 0))
        ∧ (t.blk.posmax ≠ s.blk.posmax → (∃ v, i = .wrPosmax v ∧ t.blk.posmax = v)
          ∨ (i = .reset ∧ t.blk.posmax = 0))
        ∧ (t.blk.postgt ≠ s.blk.postgt → (∃ v, i = .wrPostgt v ∧ t.blk.postgt = v)
          ∨ (i = .reset ∧ t.blk.postgt = 0))
        ∧ (t.blk.tot ≠ s.blk.tot → ((i = .enableO ∨ i = .enableC) ∧ t.blk.dir ≠ s.blk.dir ∧ t.blk.tot = 0)
          ∨ (i = .edge ∧ t.blk.tot = 0) ∨ (i = .tick ∧ t.blk.tot = s.blk.tot + 1) ∨ (i = .reset ∧ t.blk.tot = 0))
        ∧ (t.blk.runt ≠ s.blk.runt → ((i = .enableO ∨ i = .enableC) ∧ t.blk.dir ≠ s.blk.dir ∧ t.blk.runt = 0)
          ∨ (i = .tick ∧ t.blk.runt = s.blk.runt + 1) ∨ (i = .reset ∧ t.blk.runt = 0))
        ∧ (t.blk.ticken ≠ s.blk.ticken →
            ((i = .enableO ∨ i = .enableC) ∧ t.blk.dir ≠ s.blk.dir ∧ t.blk.ticken = true)
          ∨ (i = .tick ∧ t.ret = .k t.blk.ticken) ∨ (i = .reset ∧ t.blk.ticken = false))
        ∧ (t.blk.senseQ ≠ s.blk.senseQ → i = .reset ∧ t.blk.senseQ = s.sense))
    ∧ (∀ (s t : State) (rest : List Arrival), s.arrivals = .sample :: rest → step s = .next t →
        t.blk.senseQ = s.sense)

/-- `SENSE_Q` is hidden: two states that differ in it alone give, under every operation, the same result and
states that differ in it at most (10_state.md, section 2: "No other rule reads it and the HOST cannot"). The last
clause, that every operation but `RESET` leaves it, is the model's reading (log 5). -/
def Obligations.SenseLatchSteersNothing : Prop :=
  ∀ (i : Instr) (s t : State) (l : Bool), exec i s = .next t →
    ∃ u, exec i { s with blk := { s.blk with senseQ := l } } = .next u
      ∧ u = { t with blk := { t.blk with senseQ := u.blk.senseQ } }
      ∧ (i ≠ .reset → u.blk.senseQ = l)

/-- `TICKEN` gates nothing: two states that differ in it alone give, under every operation but the read of the
status word, the same result and states that differ in it at most; a tick gives the very same state
(10_state.md, section 2: "It does not gate `TICK`"). -/
def Obligations.TickRequestGatesNothing : Prop :=
  ∀ (i : Instr) (s t : State) (k : Bool), i ≠ .rdCsr → exec i s = .next t →
    ∃ u, exec i { s with blk := { s.blk with ticken := k } } = .next u
      ∧ u = { t with blk := { t.blk with ticken := u.blk.ticken } }
      ∧ (i = .tick → u = t)

/-! ## Register access -/

/-- R54: a read at each address is `MemRead` there, which returns the word the map gives for the address, whatever
the `DATA`, and changes no state; reads may be dropped from a run without changing the block's state at its end. -/
def Obligations.ReadsReturnTheMapAndChangeNothing : Prop :=
  (∀ (a : Addr) (d : Word) (s : State),
      exec (decodeBus (mkBus false a d)) s = .next { s with ret := .q (memRead a s.blk) }
        ∧ memRead a s.blk = (if a = 0 then s.blk.status else if a = 1 then s.blk.pos else if a = 2 then s.blk.posmax
        else if a = 3 then s.blk.postgt else if a = 4 then s.blk.tot else if a = 5 then s.blk.runt else 0))
    ∧ (∀ (ops : List Instr) (s t : State), runOps ops s = .next t →
        ∃ u, runOps (ops.filter fun i => !isRead i) s = .next u ∧ u.blk = t.blk)

/-- R141 to R145: each register read, its words and its result; the state is as before but for the result. -/
def Obligations.RegisterReadsReturnTheirFields : Prop :=
  (∀ d : Word, decodeWord (.bus (BitVec.ofNat 20 (0x10000 + d.toNat))) = .ok .rdPos
      ∧ decodeWord (.bus (BitVec.ofNat 20 (0x20000 + d.toNat))) = .ok .rdPosmax
      ∧ decodeWord (.bus (BitVec.ofNat 20 (0x30000 + d.toNat))) = .ok .rdPostgt
      ∧ decodeWord (.bus (BitVec.ofNat 20 (0x40000 + d.toNat))) = .ok .rdTot
      ∧ decodeWord (.bus (BitVec.ofNat 20 (0x50000 + d.toNat))) = .ok .rdRunt)
    ∧ ∀ s : State,
      exec .rdPos s = .next { s with ret := .q s.blk.pos }
        ∧ exec .rdPosmax s = .next { s with ret := .q s.blk.posmax }
        ∧ exec .rdPostgt s = .next { s with ret := .q s.blk.postgt }
        ∧ exec .rdTot s = .next { s with ret := .q s.blk.tot }
        ∧ exec .rdRunt s = .next { s with ret := .q s.blk.runt }

/-- R75 and R140: the status word bit by bit, what `RD.CSR` returns, and the only four words a state with the tick
request up while driving can give. -/
def Obligations.StatusWordLayout : Prop :=
  (∀ d : Word, decodeWord (.bus (BitVec.ofNat 20 d.toNat)) = .ok .rdCsr)
    ∧ ∀ s : State, ∃ q : Word, exec .rdCsr s = .next { s with ret := .q q }
      ∧ (q.extractLsb' 0 2).toNat = (match s.blk.dir with | .disabled => 0 | .opening => 1 | .closing => 2)
      ∧ q.getLsbD 2 = decide (s.blk.dir = .opening)
      ∧ q.getLsbD 3 = decide (s.blk.dir = .closing)
      ∧ q.getLsbD 4 = decide (s.blk.dir ≠ .disabled)
      ∧ q.getLsbD 5 = s.blk.ticken
      ∧ q.extractLsb' 6 10 = 0
      ∧ ((s.blk.dir ≠ .disabled → s.blk.ticken = true) →
          q = 0x0000 ∨ q = 0x0020 ∨ q = 0x0035 ∨ q = 0x003A)

/-- R55: a write at each address is `MemWrite` there: at 0 the command the whole data word selects, which may change
`DIR`, `POS`, `TOT`, `RUNT` and `TICKEN` and nothing else; at 2 and 3 the register is replaced; at the other addresses
nothing changes. -/
def Obligations.WritesPerformTheMap : Prop :=
  ∀ (a : Addr) (v : Word) (s : State), ∃ t, exec (decodeBus (mkBus true a v)) s = .next t
    ∧ t = { s with blk := t.blk, ret := .nothing }
    ∧ t.blk = memWrite a v s.blk
    ∧ (a = 0 →
      t.blk = { s.blk with dir := t.blk.dir, pos := t.blk.pos, tot := t.blk.tot, runt := t.blk.runt,
                           ticken := t.blk.ticken }
        ∧ (v = 1 → t.blk = enableEffect .opening s.blk)
        ∧ (v = 2 → t.blk = enableEffect .closing s.blk)
        ∧ (v = 3 → t.blk = { s.blk with dir := .disabled })
        ∧ (v = 4 → t.blk = { s.blk with pos := 0 })
        ∧ (v = 0 ∨ 5 ≤ v.toNat → t.blk = s.blk))
    ∧ (a = 2 → t.blk = { s.blk with posmax := v })
    ∧ (a = 3 → t.blk = { s.blk with postgt := v })
    ∧ (a ≠ 0 → a ≠ 2 → a ≠ 3 → t.blk = s.blk)

/-- R147 and R148: the two register writes, their words, their effect in any state with any value, and the
read-back; `POSMAX` makes the block calibrated exactly if it is not zero, and `POSTGT` is not clamped. -/
def Obligations.RegisterWritesTakeEffectAtOnce : Prop :=
  (∀ v : Word, decodeWord (.bus (BitVec.ofNat 20 (0xA0000 + v.toNat))) = .ok (.wrPosmax v)
      ∧ decodeWord (.bus (BitVec.ofNat 20 (0xB0000 + v.toNat))) = .ok (.wrPostgt v))
    ∧ ∀ (v : Word) (s : State), ∃ t u,
      exec (.wrPosmax v) s = .next t ∧ t = { s with blk := { s.blk with posmax := v }, ret := .nothing }
        ∧ (t.blk.calibrated = true ↔ v ≠ 0) ∧ exec .rdPosmax t = .next { t with ret := .q v }
        ∧ exec (.wrPostgt v) s = .next u ∧ u = { s with blk := { s.blk with postgt := v }, ret := .nothing }
        ∧ exec .rdPostgt u = .next { u with ret := .q v }

/-! ## HOST sequences -/

/-- R163 and R164: a calibration called with the motor off while no sequence runs (the first, or again after any
sequence has returned), whatever edges, ticks, pin changes and samples fall between its lines: if it returned an error
the block is uncalibrated and off; if it returned `Ok`, `POSMAX` is at least `MOTOR_MIN_RANGE` and positive, `POS` is 0
and the motor is off; it returns nothing else. The range check is signed and strict: a range below the minimum is
unset and reported, one equal to it passes. -/
def Obligations.CalibrationOutcome : Prop :=
  (∀ (s t : State) (n : Nat) (rest : List Arrival), Safe s → s.host.running = false → s.blk.dir = .disabled →
    s.arrivals = .call .calibrate :: rest → rest.all whileSequenceRuns = true → runSteps (n + 1) s = .next t →
      (∀ e, t.host = .done (.calErr e) → t.blk.posmax = 0 ∧ t.blk.dir = .disabled)
        ∧ (t.host = .done .calOk → t.par.motorMinRange.toInt ≤ t.blk.posmax.toInt ∧ 0 < t.blk.posmax.toInt
            ∧ t.blk.pos = 0 ∧ t.blk.dir = .disabled)
        ∧ (∀ r, t.host = .done r →
            r = .calOk ∨ r = .calErr .runtimeExceeded ∨ r = .calErr .rangeTooSmall))
    ∧ ∀ (s : State) (m : Word) (rest : List Arrival), s.host = .calZeroEnd m → s.arrivals = .turn :: .turn :: rest →
      (s.par.motorMinRange.toInt ≤ m.toInt →
          ∃ u, step s = .next u ∧ u.host = .done .calOk ∧ u.blk = { s.blk with pos := 0 })
        ∧ (m.toInt < s.par.motorMinRange.toInt →
          ∃ u, runSteps 2 s = .next u ∧ u.host = .done (.calErr .rangeTooSmall)
            ∧ u.blk = { s.blk with pos := 0, posmax := 0 })

/-- Every sequence of the HOST returns with the motor powered off, whatever edges, ticks, pin changes and samples
fall between its lines, if it was called with the motor off while no sequence ran: as the first of all, or after
another has returned, as a `SEEK` is called after a `CALIBRATE` (45_host_sequences.md, sections 1 to 4). -/
def Obligations.SequencesReturnWithMotorOff : Prop :=
  ∀ (s t : State) (n : Nat) (c : HostCall) (rest : List Arrival), s.host.running = false → s.blk.dir = .disabled →
    s.arrivals = .call c :: rest → rest.all whileSequenceRuns = true → runSteps (n + 1) s = .next t →
      ∀ r, t.host = .done r → t.blk.dir = .disabled

/-- R165: `SEEK t` called with the motor off, its lines run one after another: with `POSMAX` 0 it returns; else the
target is clamped at 0 from below and then at `POSMAX` from above (so into `[0, POSMAX]` if `POSMAX` is positive),
equal to `POS` it is a no-op, else it is written to `POSTGT` and the motor is enabled towards it, and the sequence
waits; the wait ends when it reads that the motor is off. -/
def Obligations.SeekClampsAndDrives : Prop :=
  (∀ (s : State) (t : Word) (rest : List Arrival), s.host.running = false → s.blk.dir = .disabled →
    s.arrivals = [.call (.seek t), .turn, .turn, .turn, .turn] ++ rest →
    (s.blk.posmax = 0 → ∃ u, runSteps 2 s = .next u ∧ u.blk = s.blk ∧ u.host = .done .sought)
      ∧ (s.blk.posmax ≠ 0 → ∃ (c : Word) (u : State), c.toInt = min (max t.toInt 0) s.blk.posmax.toInt
        ∧ (c = s.blk.pos → runSteps 3 s = .next u ∧ u.blk = s.blk ∧ u.host = .done .sought)
        ∧ (c ≠ s.blk.pos → runSteps 5 s = .next u ∧ u.host = .wait .seek
            ∧ u.blk = { s.blk with
                postgt := c
                dir := if s.blk.pos.toInt < c.toInt then .opening else .closing
                tot := 0, runt := 0, ticken := true })))
    ∧ (∀ (s : State) (rest : List Arrival), s.host = .wait .seek → s.arrivals = .turn :: rest →
      ∃ u, step s = .next u ∧ u.blk = s.blk
        ∧ u.host = if s.blk.dir = .disabled then .done .sought else .wait .seek)

/-- R166: `SEEK` on an uncalibrated block returns at once, with no write and no command. -/
def Obligations.SeekRefusedBeforeCalibration : Prop :=
  ∀ (s : State) (t : Word) (rest : List Arrival), s.host.running = false → s.blk.posmax = 0 →
    s.arrivals = [.call (.seek t), .turn] ++ rest →
    ∃ u, runSteps 2 s = .next u ∧ u.blk = s.blk ∧ u.host = .done .sought ∧ u.arrivals = rest

/-- R167 and R182: how the HOST tells a seek's outcome from the position after an Opening or a Closing drive. -/
def Obligations.SeekOutcomeToldFromPosition : Prop :=
  ∀ t p : Word,
    (seekOutcome .opening t p = .arrived ↔ t.toInt ≤ p.toInt)
      ∧ (seekOutcome .opening t p = .stallTimeout ↔ p.toInt < t.toInt)
      ∧ (seekOutcome .closing t p = .arrived ↔ p.toInt ≤ t.toInt)
      ∧ (seekOutcome .closing t p = .stallTimeout ↔ t.toInt < p.toInt)

/-- R168: `WAITIDLE`, on its own or as the last line of `SEEK`, ends exactly when it reads that the motor is off, and
changes nothing. -/
def Obligations.WaitIdleEndsWhenDisabled : Prop :=
  ∀ (s : State) (w : WaitOf) (rest : List Arrival), s.host = .wait w → s.arrivals = .turn :: rest →
    ∃ u, step s = .next u ∧ u.blk = s.blk ∧ u.arrivals = rest
      ∧ (s.blk.dir = .disabled → u.host = .done (match w with | .own => .waited | .seek => .sought))
      ∧ (s.blk.dir ≠ .disabled → u.host = .wait w)

/-- R161: the lines of `PHASE(d, MAX)`, for a phase on its own and for the two of `CALIBRATE`: it enables, then polls
`DIR` and `RUNT` in two reads, returns true when the motor is off, and forces a stop and returns false when `RUNT`
exceeds the bound, strictly. -/
def Obligations.PhaseLines : Prop :=
  (∀ (s : State) (p : PhaseOf) (rest : List Arrival), s.arrivals = .turn :: rest →
    (s.host = .phEnable p →
        ∃ u, step s = .next u ∧ u.blk = enableEffect p.drive s.blk ∧ u.blk.dir = p.drive.dir ∧ u.host = .phCsr p)
      ∧ (s.host = .phCsr p → ∃ u, step s = .next u ∧ u.blk = s.blk
        ∧ u.host = if s.blk.dir = .disabled then phaseReturn true p else .phRunt p)
      ∧ (s.host = .phRunt p → ∃ u, step s = .next u ∧ u.blk = s.blk
        ∧ u.host = if (p.bound s.par).toNat < s.blk.runt.toNat then .phDisable p else .phCsr p)
      ∧ (s.host = .phDisable p → ∃ u, step s = .next u
        ∧ u.blk = { s.blk with dir := .disabled } ∧ u.host = phaseReturn false p))
    ∧ ∀ (d : Drive) (max : Word) (par : Params) (ok : Bool),
      (PhaseOf.own d max).drive = d ∧ (PhaseOf.own d max).bound par = max
        ∧ startCall (.phase d max) = .phEnable (.own d max) ∧ phaseReturn ok (.own d max) = .done (.phase ok)

/-- R160: the twelve lines of `CALIBRATE`: what each transaction does and where the sequence goes from it, and the two
phases it calls, with their directions and bounds. -/
def Obligations.CalibrationLines : Prop :=
  (startCall .calibrate = .calClear
    ∧ (∀ par : Params, PhaseOf.calOpen.drive = .opening ∧ PhaseOf.calOpen.bound par = par.maxOpenTicks
      ∧ PhaseOf.calClose.drive = .closing ∧ PhaseOf.calClose.bound par = par.maxCloseTicks)
    ∧ (∀ ok : Bool, phaseReturn ok .calOpen = .calZeroOpen ok)
    ∧ phaseReturn true .calClose = .calReadPos ∧ phaseReturn false .calClose = .done (.calErr .runtimeExceeded))
  ∧ ∀ (s : State) (rest : List Arrival), s.arrivals = .turn :: rest →
    (s.host = .calClear → ∃ u, step s = .next u ∧ u.blk = { s.blk with posmax := 0 } ∧ u.host = .phEnable .calOpen)
      ∧ (∀ ok : Bool, s.host = .calZeroOpen ok → ∃ u, step s = .next u ∧ u.blk = { s.blk with pos := 0 }
        ∧ u.host = if ok = true then .phEnable .calClose else .done (.calErr .runtimeExceeded))
      ∧ (s.host = .calReadPos → ∃ u m, step s = .next u ∧ u.blk = s.blk ∧ u.host = .calWriteMax m
        ∧ m.toInt = (-s.blk.pos.toInt).bmod (2 ^ 16))
      ∧ (∀ m : Word, s.host = .calWriteMax m → ∃ u, step s = .next u ∧ u.blk = { s.blk with posmax := m }
        ∧ u.host = .calZeroEnd m)
      ∧ (∀ m : Word, s.host = .calZeroEnd m → ∃ u, step s = .next u ∧ u.blk = { s.blk with pos := 0 }
        ∧ u.host = if m.toInt < s.par.motorMinRange.toInt then .calUnset else .done .calOk)
      ∧ (s.host = .calUnset → ∃ u, step s = .next u ∧ u.blk = { s.blk with posmax := 0 }
        ∧ u.host = .done (.calErr .rangeTooSmall))

/-- R170 and R171: the two queries are one read each and return the position, and whether `POSMAX` is not 0. -/
def Obligations.QueriesReturnSnapshots : Prop :=
  ∀ (s : State) (rest : List Arrival), s.host.running = false →
    (s.arrivals = [.call .curPos, .turn] ++ rest →
        ∃ u, runSteps 2 s = .next u ∧ u.blk = s.blk ∧ u.host = .done (.position s.blk.pos))
      ∧ (s.arrivals = [.call .isCal, .turn] ++ rest →
        ∃ u, runSteps 2 s = .next u ∧ u.blk = s.blk ∧ u.host = .done (.isCal (decide (s.blk.posmax ≠ 0))))
end

