-- ==== Sys2Proof/Laws/Decode.lean ====
section
/-!
SUPPORT. The fields of a transaction word built from its fields, and the word rebuilt from them; decoding of a
built word.
-/

namespace Sys2Proof

@[simp] theorem busWr_mkBus (wr : Bool) (a : Addr) (d : Word) : busWr (mkBus wr a d) = wr := by
  unfold busWr mkBus
  rw [BitVec.getLsbD_append]
  cases wr <;> rfl

@[simp] theorem busAddr_mkBus (wr : Bool) (a : Addr) (d : Word) : busAddr (mkBus wr a d) = a := by
  apply BitVec.eq_of_getLsbD_eq
  intro i hi
  have h3 : i < 3 := hi
  simp only [busAddr, mkBus, BitVec.getLsbD_extractLsb', BitVec.getLsbD_append, h3]
  have h1 : 16 + i < 3 + 16 := by omega
  have h2 : ¬ 16 + i < 16 := by omega
  simp [h1]

@[simp] theorem busData_mkBus (wr : Bool) (a : Addr) (d : Word) : busData (mkBus wr a d) = d := by
  apply BitVec.eq_of_getLsbD_eq
  intro i hi
  have h3 : i < 16 := hi
  simp only [busData, mkBus, BitVec.getLsbD_extractLsb', BitVec.getLsbD_append, h3]
  have h1 : 0 + i < 3 + 16 := by omega
  simp [h3]
  omega

/-- A transaction word is made of its fields: no bit lies outside them (R71). -/
theorem mkBus_fields (t : BusWord) : mkBus (busWr t) (busAddr t) (busData t) = t := by
  apply BitVec.eq_of_getLsbD_eq
  intro i hi
  have h : i < 20 := hi
  simp only [mkBus, busWr, busAddr, busData, BitVec.getLsbD_append, BitVec.getLsbD_extractLsb']
  by_cases h16 : i < 16
  · simp [h16, show i < 3 + 16 by omega]
  · by_cases h19 : i < 19
    · simp [h16, show i < 3 + 16 by omega, show i - 16 < 3 by omega, show 16 + (i - 16) = i by omega]
    · have : i = 19 := by omega
      subst this
      simp

/-- A built write decodes by its address and data (R76). -/
theorem decodeBus_write (a : Addr) (d : Word) : decodeBus (mkBus true a d) = decodeWrite a d := by
  simp [decodeBus]

/-- A built read decodes by its address; its data is not decoded (R76). -/
theorem decodeBus_read (a : Addr) (d : Word) : decodeBus (mkBus false a d) = decodeRead a := by
  simp [decodeBus]

/-- An address below 6 is one of six; the others are reserved (R51). -/
theorem addr_cases (a : Addr) :
    a = 0 ∨ a = 1 ∨ a = 2 ∨ a = 3 ∨ a = 4 ∨ a = 5 ∨ ReservedAddr a := by
  revert a
  decide

/-- The decoder on the reserved addresses (R76, R79). -/
theorem decodeRead_reserved (a : Addr) (h : ReservedAddr a) : decodeRead a = .rdRsv a := by
  revert a
  decide

theorem decodeWrite_reserved (a : Addr) (d : Word) (h : ReservedAddr a) : decodeWrite a d = .wrRsv a d := by
  have h67 : a = 6 ∨ a = 7 := by
    revert a
    decide
  rcases h67 with rfl | rfl <;> rfl

/-- A reserved command value is none of the five commands (R74). -/
theorem decodeCommand_reserved (d : Word) (h : ReservedCommand d) : decodeCommand d = .wrCsrRsv d := by
  have ne : ∀ k : Nat, k < 5 → d ≠ BitVec.ofNat 16 k := by
    rintro k hk rfl
    simp only [ReservedCommand, BitVec.toNat_ofNat] at h
    omega
  simp [decodeCommand, ne 0, ne 1, ne 2, ne 3, ne 4]

/-- A data word is one of the five commands or a reserved value (R74). -/
theorem command_cases (d : Word) : d = 0 ∨ d = 1 ∨ d = 2 ∨ d = 3 ∨ d = 4 ∨ ReservedCommand d := by
  by_cases h : ReservedCommand d
  · simp [h]
  · simp only [ReservedCommand, not_le] at h
    bv_omega

/-- Two built words are equal exactly if their fields are. -/
theorem mkBus_inj (w w' : Bool) (a a' : Addr) (d d' : Word) :
    mkBus w a d = mkBus w' a' d' ↔ w = w' ∧ a = a' ∧ d = d' := by
  constructor
  · intro h
    refine ⟨?_, ?_, ?_⟩
    · rw [← busWr_mkBus w a d, h, busWr_mkBus]
    · rw [← busAddr_mkBus w a d, h, busAddr_mkBus]
    · rw [← busData_mkBus w a d, h, busData_mkBus]
  · rintro ⟨rfl, rfl, rfl⟩
    rfl

/-- Under the mask of the four upper bits only the direction and the address of a word are left. -/
theorem mkBus_and_upper (wr : Bool) (a : Addr) (d : Word) : mkBus wr a d &&& 0xF0000 = mkBus wr a 0 := by
  have h : (0xF0000 : BusWord) = BitVec.allOnes 1 ++ (BitVec.allOnes 3 ++ (0 : Word)) := by decide
  rw [h]
  unfold mkBus
  rw [BitVec.and_append, BitVec.and_append, BitVec.and_allOnes, BitVec.and_allOnes]
  exact congrArg _ (congrArg _ BitVec.and_zero)

/-- The same under the mask of the three upper bits, where the reserved addresses 6 and 7 are one row. -/
theorem mkBus_and_reserved (wr : Bool) (a : Addr) (d : Word) (h : ReservedAddr a) :
    mkBus wr a d &&& 0xE0000 = mkBus wr 6 0 := by
  have e : (0xE0000 : BusWord) = 0xF0000 &&& 0xE0000 := by decide
  rw [e, ← BitVec.and_assoc, mkBus_and_upper]
  revert wr a
  decide

/-- A built word without data leaves the low sixteen bits clear. -/
theorem mkBus_zero_and_data (wr : Bool) (a : Addr) : mkBus wr a 0 &&& 0xFFFF = 0 := by
  revert wr a
  decide

/-- The data of a built word is added to the word without data. -/
theorem mkBus_eq_add (wr : Bool) (a : Addr) (d : Word) : mkBus wr a d = mkBus wr a 0 + d.zeroExtend 20 := by
  have hlow : ∀ i : Fin 16, (0xFFFF : BusWord).getLsbD i = true := by decide
  have hhigh : ∀ i, ¬ i < 16 → (BitVec.zeroExtend 20 d).getLsbD i = false := by
    intro i h
    simp only [BitVec.getLsbD_setWidth, Bool.and_eq_false_imp]
    intro _
    exact BitVec.getLsbD_of_ge d i (by omega)
  have hand : mkBus wr a 0 &&& d.zeroExtend 20 = 0 := by
    apply BitVec.eq_of_getLsbD_eq
    intro i _
    by_cases h : i < 16
    · have hz := congrArg (fun v => v.getLsbD i) (mkBus_zero_and_data wr a)
      simp only [BitVec.getLsbD_and, hlow ⟨i, h⟩, Bool.and_true] at hz
      rw [BitVec.getLsbD_and, hz]
      simp
    · rw [BitVec.getLsbD_and, hhigh i h]
      simp
  rw [BitVec.add_eq_or_of_and_eq_zero _ _ hand]
  apply BitVec.eq_of_getLsbD_eq
  intro i _
  by_cases h : i < 16
  · have h3 : i < 3 + 16 := by omega
    have h20 : i < 20 := by omega
    simp only [mkBus, BitVec.getLsbD_or, BitVec.getLsbD_append, h, h3, BitVec.getLsbD_setWidth, h20]
    simp
  · rw [BitVec.getLsbD_or, hhigh i h, Bool.or_false]
    simp only [mkBus, BitVec.getLsbD_append, h, if_false]

/-- The same as a number: the word without data, and the data counted on from it. -/
theorem mkBus_ofNat (wr : Bool) (a : Addr) (d : Word) (k : Nat) (hk : (mkBus wr a 0).toNat = k) :
    BitVec.ofNat 20 (k + d.toNat) = mkBus wr a d := by
  rw [mkBus_eq_add]
  apply BitVec.eq_of_toNat_eq
  rw [BitVec.toNat_add, hk]
  simp

/-- A built word as a number. -/
theorem mkBus_toNat (wr : Bool) (a : Addr) (d : Word) : (mkBus wr a d).toNat = (mkBus wr a 0).toNat + d.toNat := by
  have hb : ∀ (wr : Bool) (a : Addr), (mkBus wr a 0).toNat + 65536 ≤ 2 ^ 20 := by decide
  have := hb wr a
  rw [← mkBus_ofNat wr a d _ rfl, BitVec.toNat_ofNat, Nat.mod_eq_of_lt (by omega)]

end Sys2Proof
end

