-- ==== Sys2Proof/Laws/Operands.lean ====
section
/-!
SUPPORT. What the arithmetic primitives of R12 are on bit vectors, on integers and on naturals, and the
comparisons as propositions; and the predicates of R31 as propositions.
-/

namespace Sys2Proof.Machine

/-- The counter's increment is addition on the pattern (R25, R26). -/
theorem succU_eq (v : Word) : succU v = v + 1 := by
  unfold succU wrap
  rw [BitVec.ofInt_add]
  congr 1
  simp

/-- The counter's increment modulo 2^16. -/
theorem succU_toNat (v : Word) : (succU v).toNat = (v.toNat + 1) % 2 ^ 16 := by
  rw [succU_eq, BitVec.toNat_add]; rfl

/-- Wrapping undoes the signed reading. -/
theorem wrap_sgn (v : Word) : wrap (sgn v) = v := BitVec.ofInt_toInt

/-- One more in signed reading, wrapped, is addition on the pattern (R105). -/
theorem wrap_sgn_add_one (v : Word) : wrap (sgn v + 1) = v + 1 := by
  simp [wrap, sgn, BitVec.ofInt_add]

/-- One less in signed reading, wrapped, is subtraction on the pattern (R105). -/
theorem wrap_sgn_sub_one (v : Word) : wrap (sgn v - 1) = v - 1 := by
  unfold wrap sgn
  rw [Int.sub_eq_add_neg, BitVec.ofInt_add, BitVec.ofInt_toInt, BitVec.sub_eq_add_neg]
  congr 1

/-- The signed reading of a wrapped integer. -/
theorem sgn_wrap (n : Int) : sgn (wrap n) = n.bmod (2 ^ 16) := by
  exact BitVec.toInt_ofInt n

/-- The negation of line 8 of `CALIBRATE` is negation on the pattern (R160). -/
theorem negPos_eq (p : Word) : negPos p = -p := by
  simp [negPos, wrap, sgn, BitVec.ofInt_neg, BitVec.ofInt_toInt]

theorem ltS_iff (a b : Word) : ltS a b = true ↔ a.toInt < b.toInt := decide_eq_true_iff
theorem leS_iff (a b : Word) : leS a b = true ↔ a.toInt ≤ b.toInt := decide_eq_true_iff
theorem geS_iff (a b : Word) : geS a b = true ↔ b.toInt ≤ a.toInt := decide_eq_true_iff
theorem gtS_iff (a b : Word) : gtS a b = true ↔ b.toInt < a.toInt := decide_eq_true_iff
theorem gtU_iff (a b : Word) : gtU a b = true ↔ b.toNat < a.toNat := decide_eq_true_iff

theorem running_iff (b : Block) : b.running = true ↔ b.dir ≠ .disabled := by simp [Block.running]
theorem running_false_iff (b : Block) : b.running = false ↔ b.dir = .disabled := by simp [Block.running]
theorem calibrated_iff (b : Block) : b.calibrated = true ↔ b.posmax ≠ 0 := by simp [Block.calibrated]

/-- R31's `arrived`, over the signed readings. -/
theorem arrived_iff (b : Block) : b.arrived = true ↔
    (b.dir = .opening ∧ b.postgt.toInt ≤ b.pos.toInt) ∨ (b.dir = .closing ∧ b.pos.toInt ≤ b.postgt.toInt) := by
  simp [Block.arrived, geS_iff, leS_iff]

@[simp] theorem arrived_of_disabled (b : Block) (h : b.dir = .disabled) : b.arrived = false := by
  simp [Block.arrived, h]

/-- The status word's low two bits are zero exactly while Disabled (R75, R168). -/
theorem statusIdle_status (b : Block) : statusIdle b.status = decide (b.dir = .disabled) := by
  rcases b with ⟨d, _, _, _, _, _, k, _⟩
  cases d <;> cases k <;>
    simp [statusIdle, Block.status, Block.running, Block.drvClose, Block.drvOpen, Dir.code]

end Sys2Proof.Machine
end

