-- ==== Sys2Proof/Laws/State.lean ====
section
/-!
SUPPORT. One lemma per field for each update of the record and of the state, so that no proof unfolds a record
update; and the small facts of the parameters.
-/

namespace Sys2Proof.Machine

/-! ## `State.complete` -/

@[simp] theorem State.complete_blk (b : Block) (r : Ret) (s : State) : (s.complete b r).blk = b := rfl
@[simp] theorem State.complete_sense (b : Block) (r : Ret) (s : State) : (s.complete b r).sense = s.sense := rfl
@[simp] theorem State.complete_host (b : Block) (r : Ret) (s : State) : (s.complete b r).host = s.host := rfl
@[simp] theorem State.complete_par (b : Block) (r : Ret) (s : State) : (s.complete b r).par = s.par := rfl
@[simp] theorem State.complete_ret (b : Block) (r : Ret) (s : State) : (s.complete b r).ret = r := rfl
@[simp] theorem State.complete_arrivals (b : Block) (r : Ret) (s : State) :
    (s.complete b r).arrivals = s.arrivals := rfl

/-! ## `State.withArrivals` -/

@[simp] theorem State.withArrivals_blk (l : List Arrival) (s : State) : (s.withArrivals l).blk = s.blk := rfl
@[simp] theorem State.withArrivals_sense (l : List Arrival) (s : State) : (s.withArrivals l).sense = s.sense := rfl
@[simp] theorem State.withArrivals_host (l : List Arrival) (s : State) : (s.withArrivals l).host = s.host := rfl
@[simp] theorem State.withArrivals_par (l : List Arrival) (s : State) : (s.withArrivals l).par = s.par := rfl
@[simp] theorem State.withArrivals_ret (l : List Arrival) (s : State) : (s.withArrivals l).ret = s.ret := rfl
@[simp] theorem State.withArrivals_arrivals (l : List Arrival) (s : State) : (s.withArrivals l).arrivals = l := rfl
@[simp] theorem State.withArrivals_withArrivals (k l : List Arrival) (s : State) :
    (s.withArrivals k).withArrivals l = s.withArrivals l := rfl
@[simp] theorem State.withArrivals_self (s : State) : s.withArrivals s.arrivals = s := rfl

/-! ## `State.pushRest` -/

/-- Pushing the rest of an instant changes the schedule alone. -/
theorem State.pushRest_eq (e : EvVec) (b : Option BusWord) (s : State) :
    s.pushRest e b = s.withArrivals (s.pushRest e b).arrivals := by
  unfold State.pushRest
  split <;> rfl

@[simp] theorem State.pushRest_blk (e : EvVec) (b : Option BusWord) (s : State) :
    (s.pushRest e b).blk = s.blk := by rw [State.pushRest_eq]; rfl
@[simp] theorem State.pushRest_sense (e : EvVec) (b : Option BusWord) (s : State) :
    (s.pushRest e b).sense = s.sense := by rw [State.pushRest_eq]; rfl
@[simp] theorem State.pushRest_host (e : EvVec) (b : Option BusWord) (s : State) :
    (s.pushRest e b).host = s.host := by rw [State.pushRest_eq]; rfl
@[simp] theorem State.pushRest_par (e : EvVec) (b : Option BusWord) (s : State) :
    (s.pushRest e b).par = s.par := by rw [State.pushRest_eq]; rfl
@[simp] theorem State.pushRest_ret (e : EvVec) (b : Option BusWord) (s : State) :
    (s.pushRest e b).ret = s.ret := by rw [State.pushRest_eq]; rfl

/-! ## `disableEffect`, `zeroPos`, `keepStep` -/

@[simp] theorem disableEffect_dir (b : Block) : (disableEffect b).dir = .disabled := rfl
@[simp] theorem disableEffect_pos (b : Block) : (disableEffect b).pos = b.pos := rfl
@[simp] theorem disableEffect_posmax (b : Block) : (disableEffect b).posmax = b.posmax := rfl
@[simp] theorem disableEffect_postgt (b : Block) : (disableEffect b).postgt = b.postgt := rfl
@[simp] theorem disableEffect_tot (b : Block) : (disableEffect b).tot = b.tot := rfl
@[simp] theorem disableEffect_runt (b : Block) : (disableEffect b).runt = b.runt := rfl
@[simp] theorem disableEffect_ticken (b : Block) : (disableEffect b).ticken = b.ticken := rfl
@[simp] theorem disableEffect_senseQ (b : Block) : (disableEffect b).senseQ = b.senseQ := rfl

@[simp] theorem zeroPos_dir (b : Block) : (zeroPos b).dir = b.dir := rfl
@[simp] theorem zeroPos_pos (b : Block) : (zeroPos b).pos = 0 := rfl
@[simp] theorem zeroPos_posmax (b : Block) : (zeroPos b).posmax = b.posmax := rfl
@[simp] theorem zeroPos_postgt (b : Block) : (zeroPos b).postgt = b.postgt := rfl
@[simp] theorem zeroPos_tot (b : Block) : (zeroPos b).tot = b.tot := rfl
@[simp] theorem zeroPos_runt (b : Block) : (zeroPos b).runt = b.runt := rfl
@[simp] theorem zeroPos_ticken (b : Block) : (zeroPos b).ticken = b.ticken := rfl
@[simp] theorem zeroPos_senseQ (b : Block) : (zeroPos b).senseQ = b.senseQ := rfl

@[simp] theorem keepStep_dir (b : Block) : (keepStep b).dir = b.dir := rfl
@[simp] theorem keepStep_pos (b : Block) : (keepStep b).pos = b.pos := rfl
@[simp] theorem keepStep_posmax (b : Block) : (keepStep b).posmax = b.posmax := rfl
@[simp] theorem keepStep_postgt (b : Block) : (keepStep b).postgt = b.postgt := rfl
@[simp] theorem keepStep_tot (b : Block) : (keepStep b).tot = b.tot := rfl
@[simp] theorem keepStep_runt (b : Block) : (keepStep b).runt = b.runt := rfl
@[simp] theorem keepStep_ticken (b : Block) : (keepStep b).ticken = b.running := rfl
@[simp] theorem keepStep_senseQ (b : Block) : (keepStep b).senseQ = b.senseQ := rfl

/-! ## The reset record and the reset parameters -/

@[simp] theorem Block.reset_dir (l : Bool) : (Block.reset l).dir = .disabled := rfl
@[simp] theorem Block.reset_pos (l : Bool) : (Block.reset l).pos = 0 := rfl
@[simp] theorem Block.reset_posmax (l : Bool) : (Block.reset l).posmax = 0 := rfl
@[simp] theorem Block.reset_postgt (l : Bool) : (Block.reset l).postgt = 0 := rfl
@[simp] theorem Block.reset_tot (l : Bool) : (Block.reset l).tot = 0 := rfl
@[simp] theorem Block.reset_runt (l : Bool) : (Block.reset l).runt = 0 := rfl
@[simp] theorem Block.reset_ticken (l : Bool) : (Block.reset l).ticken = false := rfl
@[simp] theorem Block.reset_senseQ (l : Bool) : (Block.reset l).senseQ = l := rfl

/-- The free parameters keep the constraints of R8 by their types. -/
theorem Config.params_valid : Config.params.Valid := by
  have h1 := Config.stallThreshold.isLt
  have h2 := Config.maxOpenLessOne.isLt
  have h3 := Config.maxCloseTicks.isLt
  have h4 := Config.minRangeLessOne.isLt
  simp only [Params.Valid, Config.params, BitVec.toNat_ofNat]
  omega

end Sys2Proof.Machine
end

