-- ==== Sys2Proof/Laws/Ops.lean ====
section
/-!
SUPPORT. One lemma for each shared operation, which says once everything it can do.
-/

namespace Sys2Proof.Machine

/-! ## The Motor Driver's state change -/

theorem enableEffect_same (d : Drive) (b : Block) (h : b.dir = d.dir) : enableEffect d b = b := by
  simp [enableEffect, h]

theorem enableEffect_effective (d : Drive) (b : Block) (h : b.dir ≠ d.dir) :
    enableEffect d b = { b with dir := d.dir, tot := 0, runt := 0, ticken := true } := by
  simp [enableEffect, h]

@[simp] theorem enableEffect_dir (d : Drive) (b : Block) : (enableEffect d b).dir = d.dir := by
  unfold enableEffect
  split <;> simp_all

@[simp] theorem enableEffect_pos (d : Drive) (b : Block) : (enableEffect d b).pos = b.pos := by
  unfold enableEffect
  split <;> rfl

@[simp] theorem enableEffect_posmax (d : Drive) (b : Block) : (enableEffect d b).posmax = b.posmax := by
  unfold enableEffect
  split <;> rfl

@[simp] theorem enableEffect_postgt (d : Drive) (b : Block) : (enableEffect d b).postgt = b.postgt := by
  unfold enableEffect
  split <;> rfl

@[simp] theorem enableEffect_senseQ (d : Drive) (b : Block) : (enableEffect d b).senseQ = b.senseQ := by
  unfold enableEffect
  split <;> rfl

/-! ## The edge -/

theorem edgeEffect_opening (b : Block) (h : b.dir = .opening) :
    edgeEffect b = { b with pos := b.pos + 1, tot := 0 } := by
  simp [edgeEffect, h, wrap_sgn_add_one]

theorem edgeEffect_closing (b : Block) (h : b.dir = .closing) :
    edgeEffect b = { b with pos := b.pos - 1, tot := 0 } := by
  simp [edgeEffect, h, wrap_sgn_sub_one]

theorem edgeEffect_disabled (b : Block) (h : b.dir = .disabled) : edgeEffect b = { b with tot := 0 } := by
  simp [edgeEffect, h]

@[simp] theorem edgeEffect_tot (b : Block) : (edgeEffect b).tot = 0 := by
  unfold edgeEffect
  split <;> rfl

@[simp] theorem edgeEffect_dir (b : Block) : (edgeEffect b).dir = b.dir := by
  unfold edgeEffect
  split <;> simp_all

/-- An edge writes `POS` and `TOT` alone. -/
theorem edgeEffect_frame (b : Block) :
    edgeEffect b = { b with pos := (edgeEffect b).pos, tot := (edgeEffect b).tot } := by
  unfold edgeEffect
  split <;> rfl

/-! ## The four steps of the tick -/

/-- Step 1: `TOT` counts, and the drive ends when the new count passes the threshold. -/
theorem stallStep_eq (th : Word) (b : Block) :
    stallStep th b = { b with
      tot := b.tot + 1
      dir := if th.toNat < (b.tot + 1).toNat then .disabled else b.dir } := by
  simp only [stallStep, gtU_iff, succU_eq]
  split <;> rfl

/-- Step 2: `RUNT` counts while the motor drives. -/
theorem runtimeStep_eq (b : Block) :
    runtimeStep b = { b with runt := if b.dir = .disabled then b.runt else b.runt + 1 } := by
  unfold runtimeStep
  rcases b with ⟨d, _, _, _, _, _, _, _⟩
  cases d <;> simp [Block.running, succU_eq]

/-- Step 3: a calibrated drive that has arrived ends. -/
theorem arrivalStep_eq (b : Block) :
    arrivalStep b = { b with dir := if b.posmax ≠ 0 ∧ b.arrived = true then .disabled else b.dir } := by
  by_cases h : b.posmax ≠ 0 ∧ b.arrived = true
  · have hc : (b.calibrated && b.arrived) = true := by simpa [calibrated_iff] using h
    rw [arrivalStep, if_pos hc, if_pos h, disableEffect]
  · have hc : ¬ (b.calibrated && b.arrived) = true := by simpa [calibrated_iff] using h
    rw [arrivalStep, if_neg hc, if_neg h]

/-- Where the tick leaves `DIR`: Disabled if it was, if the stall fires, or on arrival; else as it was (R115). -/
theorem tickEffect_dir (th : Word) (b : Block) :
    (tickEffect th b).dir =
      if b.dir = .disabled ∨ th.toNat < (b.tot + 1).toNat ∨ (b.posmax ≠ 0 ∧ b.arrived = true)
      then .disabled else b.dir := by
  rcases b with ⟨d, p, m, g, t, r, k, q⟩
  simp only [tickEffect, keepStep_dir, arrivalStep_eq, runtimeStep_eq, stallStep_eq]
  generalize t + 1 = n
  by_cases h : th.toNat < n.toNat
  · simp [h, Block.arrived]
  · cases d <;> simp [h, Block.arrived]

/-- Everything a tick writes (R115): `TOT` counts, `RUNT` counts if the motor drives after step 1, `TICKEN` takes
whether it drives at the end; nothing else but `DIR`. -/
theorem tickEffect_eq (th : Word) (b : Block) :
    tickEffect th b = { b with
      dir := (tickEffect th b).dir
      tot := b.tot + 1
      runt := if b.dir = .disabled ∨ th.toNat < (b.tot + 1).toNat then b.runt else b.runt + 1
      ticken := (tickEffect th b).running } := by
  rcases b with ⟨d, p, m, g, t, r, k, q⟩
  simp only [tickEffect, keepStep, arrivalStep_eq, runtimeStep_eq, stallStep_eq]
  generalize t + 1 = n
  by_cases h : th.toNat < n.toNat <;> simp [h] <;> simp [Block.running]

/-- The incremented count as a natural number. -/
theorem add_one_toNat (v : Word) : (v + 1).toNat = (v.toNat + 1) % 2 ^ 16 := by
  rw [BitVec.toNat_add]
  rfl

/-- `TICK`: the record of the four steps, and whether the motor drives at their end (R115, R119). -/
theorem exec_tick (s : State) :
    exec .tick s = .next (s.complete (tickEffect s.par.stallThreshold s.blk)
      (.k (tickEffect s.par.stallThreshold s.blk).running)) := rfl

/-- Every operation completes and writes nothing but the record and the result (R9, R180). -/
theorem exec_frame (i : Instr) (s : State) : ∃ b r, exec i s = .next (s.complete b r) := by
  cases i <;> exact ⟨_, _, rfl⟩

/-- The command a data word selects, once decoded, does what `command` says (R74, R151). -/
theorem exec_decodeCommand (v : Word) (s : State) :
    exec (decodeCommand v) s = .next (s.complete (command v s.blk) .nothing) := by
  rcases command_cases v with rfl | rfl | rfl | rfl | rfl | h
  · rfl
  · rfl
  · rfl
  · rfl
  · rfl
  · have hc : command v s.blk = s.blk := by
      have ne : ∀ k : Nat, k < 5 → v ≠ BitVec.ofNat 16 k := by
        rintro k hk rfl
        simp only [ReservedCommand, BitVec.toNat_ofNat] at h
        omega
      simp [command, ne 1, ne 2, ne 3, ne 4]
    rw [decodeCommand_reserved v h, hc]
    rfl

/-- An operation does the same whatever the schedule holds, and leaves the schedule. -/
theorem exec_withArrivals (i : Instr) (s : State) (l : List Arrival) :
    ∃ b r, exec i s = .next (s.complete b r) ∧
      exec i (s.withArrivals l) = .next ((s.withArrivals l).complete b r) := by
  cases i <;> exact ⟨_, _, rfl, rfl⟩

end Sys2Proof.Machine
end

