-- ==== Sys2Proof/Laws/PerInstr.lean ====
section
/-!
SUPPORT. The family RowMatch: the word of a well-formed instruction matches the row of the opcode table that
carries the instruction's own mnemonic (R76, R78).
-/

namespace Sys2Proof.Laws.RowMatch

/-- The encoding of `i` matches a row of the table with `i`'s mnemonic, if `i` is well formed. -/
def Statement (i : Instr) : Prop :=
  WellFormed i = true →
    match encode i with
    | .bus t => ∃ r ∈ busRows, r.mnemonic = mnemonicOf i ∧ t &&& r.mask = r.pattern
    | .ev e => ∃ r ∈ evRows, r.mnemonic = mnemonicOf i ∧ e &&& r.mask = r.pattern

theorem reset : Statement .reset := fun _ =>
  ⟨⟨"RESET", 0b100, 0b100⟩, by decide, rfl, by decide⟩
theorem edge : Statement .edge := fun _ =>
  ⟨⟨"EDGE", 0b001, 0b111⟩, by decide, rfl, by decide⟩
theorem tick : Statement .tick := fun _ =>
  ⟨⟨"TICK", 0b010, 0b111⟩, by decide, rfl, by decide⟩
theorem nop : Statement .nop := fun _ =>
  ⟨⟨"NOP", 0x80000, 0xFFFFF⟩, by decide, rfl, by decide⟩
theorem enableO : Statement .enableO := fun _ =>
  ⟨⟨"ENABLE.O", 0x80001, 0xFFFFF⟩, by decide, rfl, by decide⟩
theorem enableC : Statement .enableC := fun _ =>
  ⟨⟨"ENABLE.C", 0x80002, 0xFFFFF⟩, by decide, rfl, by decide⟩
theorem disable : Statement .disable := fun _ =>
  ⟨⟨"DISABLE", 0x80003, 0xFFFFF⟩, by decide, rfl, by decide⟩
theorem zpos : Statement .zpos := fun _ =>
  ⟨⟨"ZPOS", 0x80004, 0xFFFFF⟩, by decide, rfl, by decide⟩
theorem wrCsrRsv (v : Word) : Statement (.wrCsrRsv v) := fun _ =>
  ⟨⟨"WR.CSR.RSV", 0x80000, 0xF0000⟩, by decide, rfl, (mkBus_and_upper _ _ _).trans (by decide)⟩
theorem wrPos (v : Word) : Statement (.wrPos v) := fun _ =>
  ⟨⟨"WR.POS", 0x90000, 0xF0000⟩, by decide, rfl, (mkBus_and_upper _ _ _).trans (by decide)⟩
theorem wrPosmax (v : Word) : Statement (.wrPosmax v) := fun _ =>
  ⟨⟨"WR.POSMAX", 0xA0000, 0xF0000⟩, by decide, rfl, (mkBus_and_upper _ _ _).trans (by decide)⟩
theorem wrPostgt (v : Word) : Statement (.wrPostgt v) := fun _ =>
  ⟨⟨"WR.POSTGT", 0xB0000, 0xF0000⟩, by decide, rfl, (mkBus_and_upper _ _ _).trans (by decide)⟩
theorem wrTot (v : Word) : Statement (.wrTot v) := fun _ =>
  ⟨⟨"WR.TOT", 0xC0000, 0xF0000⟩, by decide, rfl, (mkBus_and_upper _ _ _).trans (by decide)⟩
theorem wrRunt (v : Word) : Statement (.wrRunt v) := fun _ =>
  ⟨⟨"WR.RUNT", 0xD0000, 0xF0000⟩, by decide, rfl, (mkBus_and_upper _ _ _).trans (by decide)⟩
theorem wrRsv (a : Addr) (v : Word) : Statement (.wrRsv a v) := fun h =>
  ⟨⟨"WR.RSV", 0xE0000, 0xE0000⟩, by decide, rfl,
    (mkBus_and_reserved _ _ _ (by simpa [WellFormed] using h)).trans (by decide)⟩
theorem rdCsr : Statement .rdCsr := fun _ =>
  ⟨⟨"RD.CSR", 0x00000, 0xF0000⟩, by decide, rfl, by decide⟩
theorem rdPos : Statement .rdPos := fun _ =>
  ⟨⟨"RD.POS", 0x10000, 0xF0000⟩, by decide, rfl, by decide⟩
theorem rdPosmax : Statement .rdPosmax := fun _ =>
  ⟨⟨"RD.POSMAX", 0x20000, 0xF0000⟩, by decide, rfl, by decide⟩
theorem rdPostgt : Statement .rdPostgt := fun _ =>
  ⟨⟨"RD.POSTGT", 0x30000, 0xF0000⟩, by decide, rfl, by decide⟩
theorem rdTot : Statement .rdTot := fun _ =>
  ⟨⟨"RD.TOT", 0x40000, 0xF0000⟩, by decide, rfl, by decide⟩
theorem rdRunt : Statement .rdRunt := fun _ =>
  ⟨⟨"RD.RUNT", 0x50000, 0xF0000⟩, by decide, rfl, by decide⟩
theorem rdRsv (a : Addr) : Statement (.rdRsv a) := fun h =>
  ⟨⟨"RD.RSV", 0x60000, 0xE0000⟩, by decide, rfl,
    (mkBus_and_reserved _ _ _ (by simpa [WellFormed] using h)).trans (by decide)⟩

end Sys2Proof.Laws.RowMatch
end

