-- ==== Sys2Proof/Laws/Step.lean ====
section
/-!
SUPPORT. What a step can do, said once: every arrival is one operation, a change of the pin, a call, or nothing.
-/

namespace Sys2Proof.Machine

/-- A step with nothing in the schedule leaves the state. -/
theorem step_idle (s : State) (h : s.arrivals = []) : step s = .next s := by
  simp [step, h]

/-- A step takes the oldest arrival. -/
theorem step_cons (s : State) (a : Arrival) (rest : List Arrival) (h : s.arrivals = a :: rest) :
    step s = performArrival a (s.withArrivals rest) := by
  simp [step, h]

/-- `RESET` discards the rest of its instant (R186). -/
theorem performInstant_reset (e : EvVec) (b : Option BusWord) (s : State) (h : e.getLsbD 2 = true) :
    performInstant e b s = exec .reset s := by
  unfold performInstant
  rw [if_pos h]

/-- Without `RESET` the edge comes first, and the rest of the instant is left (R186). -/
theorem performInstant_edge (e : EvVec) (b : Option BusWord) (s : State) (h2 : e.getLsbD 2 = false)
    (h0 : e.getLsbD 0 = true) : performInstant e b s = exec .edge (s.pushRest (e &&& 0b110) b) := by
  unfold performInstant
  rw [if_neg (by rw [h2]; decide), if_pos h0]

/-- Then the tick (R186). -/
theorem performInstant_tick (e : EvVec) (b : Option BusWord) (s : State) (h2 : e.getLsbD 2 = false)
    (h0 : e.getLsbD 0 = false) (h1 : e.getLsbD 1 = true) :
    performInstant e b s = exec .tick (s.pushRest 0 b) := by
  unfold performInstant
  rw [if_neg (by rw [h2]; decide), if_neg (by rw [h0]; decide), if_pos h1]

/-- Last the HOST's transaction (R186). -/
theorem performInstant_bus (t : BusWord) (s : State) : performInstant 0 (some t) s = exec (decodeBus t) s := rfl

/-- An instant with nothing in it is over. -/
theorem performInstant_empty (s : State) : performInstant 0 none s = .next s := rfl

/-- One operation of an instant: an operation performed on a state that differs in its schedule alone, or
nothing. -/
theorem performInstant_cases (e : EvVec) (b : Option BusWord) (s : State) :
    performInstant e b s = .next s ∨ ∃ i l, performInstant e b s = exec i (s.withArrivals l) := by
  unfold performInstant
  split
  · exact .inr ⟨.reset, s.arrivals, rfl⟩
  · split
    · exact .inr ⟨.edge, (s.pushRest (e &&& 0b110) b).arrivals, by rw [← State.pushRest_eq]⟩
    · split
      · exact .inr ⟨.tick, (s.pushRest 0 b).arrivals, by rw [← State.pushRest_eq]⟩
      · cases b with
        | none => exact .inl rfl
        | some t => exact .inr ⟨decodeBus t, s.arrivals, rfl⟩

/-- A turn of the foreground: nothing when no sequence runs; else its transaction, and the next point. -/
theorem hostTurn_cases (s : State) :
    (hostInstr s.host = none ∧ hostTurn s = .next s) ∨
    (∃ i b r, hostInstr s.host = some i ∧ exec i s = .next (s.complete b r) ∧
      hostTurn s = .next { s.complete b r with host := hostNext s.par r.word s.host }) := by
  unfold hostTurn
  split
  · next h => exact .inl ⟨h, rfl⟩
  · next i h =>
    obtain ⟨b, r, he⟩ := exec_frame i s
    exact .inr ⟨i, b, r, h, he, by simp [he]⟩

/-- A turn of the foreground at a point that issues a transaction. -/
theorem hostTurn_of (s t : State) (i : Instr) (hi : hostInstr s.host = some i) (h : exec i s = .next t) :
    hostTurn s = .next { t with host := hostNext s.par t.ret.word s.host } := by
  unfold hostTurn
  simp [hi, h]

/-- The transaction of `ENABLE d` is the enable effect in that direction (R81, R90). -/
theorem exec_enableInstr (d : Drive) (s : State) :
    exec (enableInstr d) s = .next (s.complete (enableEffect d s.blk) .nothing) := by
  cases d <;> rfl

/-- Everything an arrival can do to the state whose schedule no longer holds it. -/
theorem performArrival_cases (a : Arrival) (s : State) :
    performArrival a s = .next s
      ∨ (∃ i l, performArrival a s = exec i (s.withArrivals l))
      ∨ (∃ l, a = .pin l ∧ performArrival a s = .next { s with sense := l })
      ∨ (a = .sample ∧ performArrival a s = exec .edge { s with blk := { s.blk with senseQ := s.sense } })
      ∨ (∃ c, a = .call c ∧ performArrival a s = .next { s with host := startCall c })
      ∨ (∃ i b r, a = .turn ∧ hostInstr s.host = some i ∧ exec i s = .next (s.complete b r) ∧
          performArrival a s = .next { s.complete b r with host := hostNext s.par r.word s.host })
      ∨ (a = .powerUp ∧ performArrival a s = exec .reset { s with host := .idle }) := by
  cases a with
  | instant e b =>
    rcases performInstant_cases e b s with h | ⟨i, l, h⟩
    · exact .inl h
    · exact .inr (.inl ⟨i, l, h⟩)
  | pin l => exact .inr (.inr (.inl ⟨l, rfl, rfl⟩))
  | sample =>
    by_cases h : s.sense = s.blk.senseQ
    · exact .inl (by simp [performArrival, samplePin, h])
    · exact .inr (.inr (.inr (.inl ⟨rfl, by simp [performArrival, samplePin, h]⟩)))
  | call c =>
    by_cases h : s.host.running = true
    · exact .inl (by simp [performArrival, callHost, h])
    · exact .inr (.inr (.inr (.inr (.inl ⟨c, rfl, by simp [performArrival, callHost, h]⟩))))
  | turn =>
    rcases hostTurn_cases s with ⟨_, h⟩ | ⟨i, b, r, h⟩
    · exact .inl h
    · exact .inr (.inr (.inr (.inr (.inr (.inl ⟨i, b, r, rfl, h⟩)))))
  | powerUp => exact .inr (.inr (.inr (.inr (.inr (.inr ⟨rfl, rfl⟩)))))

/-- A step that takes a turn of the foreground. -/
theorem step_turn (s t : State) (rest : List Arrival) (i : Instr) (ha : s.arrivals = .turn :: rest)
    (hi : hostInstr s.host = some i) (h : exec i (s.withArrivals rest) = .next t) :
    step s = .next { t with host := hostNext s.par t.ret.word s.host } := by
  rw [step_cons s .turn rest ha]
  exact hostTurn_of (s.withArrivals rest) t i hi h

/-- A step that takes a call, no sequence running. -/
theorem step_call (s : State) (c : HostCall) (rest : List Arrival) (ha : s.arrivals = .call c :: rest)
    (hr : s.host.running = false) :
    step s = .next { s.withArrivals rest with host := startCall c } := by
  rw [step_cons s (.call c) rest ha]
  simp [performArrival, callHost, hr]

/-! ## Runs -/

/-- A run of operations that begins with one operation. -/
theorem runOps_cons (i : Instr) (ops : List Instr) (s t : State) (h : exec i s = .next t) :
    runOps (i :: ops) s = runOps ops t := by
  simp [runOps, h]

/-- A run of one operation. -/
theorem runOps_single (i : Instr) (s : State) : runOps [i] s = exec i s := by
  obtain ⟨b, r, h⟩ := exec_frame i s
  simp [runOps, h]

/-- A run of operations performed after another. -/
theorem runOps_append (xs ys : List Instr) (s t : State) (h : runOps xs s = .next t) :
    runOps (xs ++ ys) s = runOps ys t := by
  induction xs generalizing s with
  | nil =>
    simp only [runOps, Host.Outcome.next.injEq] at h
    rw [List.nil_append, h]
  | cons i xs ih =>
    obtain ⟨b, r, hi⟩ := exec_frame i s
    rw [runOps_cons i xs s _ hi] at h
    rw [List.cons_append, runOps_cons i _ s _ hi]
    exact ih _ h

/-- A run of steps that begins with one step. -/
theorem runSteps_succ (n : Nat) (s t : State) (h : step s = .next t) :
    runSteps (n + 1) s = runSteps n t := by
  simp [runSteps, h]

/-- A run of steps followed by another. -/
theorem runSteps_add (n m : Nat) (s t : State) (h : runSteps n s = .next t) :
    runSteps (n + m) s = runSteps m t := by
  induction n generalizing s with
  | zero =>
    simp only [runSteps, Host.Outcome.next.injEq] at h
    rw [Nat.zero_add, h]
  | succ n ih =>
    simp only [runSteps] at h
    split at h
    · next u hu =>
      rw [Nat.add_right_comm, runSteps_succ _ _ _ hu]
      exact ih u h
    · cases h
    · cases h

/-- An induction over runs, packaged once: what holds at the start and is kept by every step of the run holds at
its end. -/
theorem runSteps_invariant (P : State → Prop) (keep : ∀ s t, P s → step s = .next t → P t) :
    ∀ n s t, P s → runSteps n s = .next t → P t := by
  intro n
  induction n with
  | zero =>
    intro s t hs h
    simp only [runSteps, Host.Outcome.next.injEq] at h
    exact h ▸ hs
  | succ n ih =>
    intro s t hs h
    simp only [runSteps] at h
    split at h
    · next u hu => exact ih u t (keep s u hs hu) h
    · cases h
    · cases h

end Sys2Proof.Machine
end

