-- ==== Sys2Proof/Tests/Slice0.lean ====
section
/-!
SUPPORT. Tests. Expected results are those of the spec: the encodings of R71 to R78, the vectors of
95_test_vectors.md (named in each comment), and hand calculation from the rule named. The second half shows, for
every statement with hypotheses, a state and operands that meet them.
-/

namespace Sys2Proof.Machine

/-- A state from the tuple of 95_test_vectors.md, with `STALL_THRESHOLD` 3, nothing scheduled, no sequence. -/
def testState (d : Dir) (p m g : Int) (tot runt : Nat) (k : Bool) : State where
  blk := { dir := d, pos := BitVec.ofInt 16 p, posmax := BitVec.ofInt 16 m, postgt := BitVec.ofInt 16 g,
           tot := BitVec.ofNat 16 tot, runt := BitVec.ofNat 16 runt, ticken := k, senseQ := false }
  sense := false
  host := .idle
  par := { stallThreshold := 3, maxOpenTicks := 1000, maxCloseTicks := 800, motorMinRange := 100 }
  ret := .nothing
  arrivals := []

/-- The same state with a schedule. -/
def testSched (s : State) (l : List Arrival) : State := { s with arrivals := l }

/-- Where the HOST stands at the end of a run. -/
def testHost : Host.Outcome State Fault Refusal → Option HostPt
  | .next t => some t.host
  | .fault _ => none
  | .refused _ => none

/-- The end state of a run; the state given where there is none. -/
def testEnd (s : State) : Host.Outcome State Fault Refusal → State
  | .next t => t
  | .fault _ => s
  | .refused _ => s

/-! ## Decoding, one word of every row (R71, R72, R74, R76, R78; 95_test_vectors.md, section 2.4) -/

theorem test_decode_reset_masked : decodeWord (.ev 0b111) = .ok (.reset) := rfl
theorem test_decode_reset : decodeWord (.ev 0b100) = .ok (.reset) := rfl
theorem test_decode_edge : decodeWord (.ev 0b001) = .ok (.edge) := rfl
theorem test_decode_tick : decodeWord (.ev 0b010) = .ok (.tick) := rfl
theorem test_decode_nop : decodeWord (.bus 0x80000) = .ok (.nop) := rfl
theorem test_decode_enable_o : decodeWord (.bus 0x80001) = .ok (.enableO) := rfl
theorem test_decode_enable_c : decodeWord (.bus 0x80002) = .ok (.enableC) := rfl
theorem test_decode_disable : decodeWord (.bus 0x80003) = .ok (.disable) := rfl
theorem test_decode_zpos : decodeWord (.bus 0x80004) = .ok (.zpos) := rfl
theorem test_decode_wr_csr_rsv_first : decodeWord (.bus 0x80005) = .ok (.wrCsrRsv 5) := rfl
theorem test_decode_wr_csr_rsv_last : decodeWord (.bus 0x8FFFF) = .ok (.wrCsrRsv 0xFFFF) := rfl
theorem test_decode_wr_csr_rsv_not_enable : decodeWord (.bus 0x80101) = .ok (.wrCsrRsv 0x0101) := rfl
theorem test_decode_wr_pos : decodeWord (.bus 0x90000) = .ok (.wrPos 0) := rfl
theorem test_decode_wr_posmax : decodeWord (.bus 0xA012C) = .ok (.wrPosmax 300) := rfl
theorem test_decode_wr_postgt : decodeWord (.bus 0xB0096) = .ok (.wrPostgt 150) := rfl
theorem test_decode_wr_tot : decodeWord (.bus 0xC0001) = .ok (.wrTot 1) := rfl
theorem test_decode_wr_runt : decodeWord (.bus 0xD8000) = .ok (.wrRunt 0x8000) := rfl
theorem test_decode_wr_rsv6 : decodeWord (.bus 0xE1234) = .ok (.wrRsv 6 0x1234) := rfl
theorem test_decode_wr_rsv7 : decodeWord (.bus 0xFFFFF) = .ok (.wrRsv 7 0xFFFF) := rfl
theorem test_decode_rd_csr : decodeWord (.bus 0x0BEEF) = .ok (.rdCsr) := rfl
theorem test_decode_rd_pos : decodeWord (.bus 0x1BEEF) = .ok (.rdPos) := rfl
theorem test_decode_rd_posmax : decodeWord (.bus 0x20000) = .ok (.rdPosmax) := rfl
theorem test_decode_rd_postgt : decodeWord (.bus 0x30000) = .ok (.rdPostgt) := rfl
theorem test_decode_rd_tot : decodeWord (.bus 0x40000) = .ok (.rdTot) := rfl
theorem test_decode_rd_runt : decodeWord (.bus 0x5FFFF) = .ok (.rdRunt) := rfl
theorem test_decode_rd_rsv6 : decodeWord (.bus 0x60000) = .ok (.rdRsv 6) := rfl
theorem test_decode_rd_rsv7 : decodeWord (.bus 0x70000) = .ok (.rdRsv 7) := rfl

/-- `E = 000` is no operation and `E = 011` is two (R72, R77). -/
theorem test_decode_no_event : decodeWord (.ev 0b000) = .error .noEvent := rfl
theorem test_decode_two_events : decodeWord (.ev 0b011) = .error .severalOperations := rfl

/-- A number with a bit its format does not have is rejected by name. -/
theorem test_decode_extra_bits :
    decodeNumbered 24 0x180001 = .error .bitsOutsideFormat ∧ decodeNumbered 8 0b1001 = .error .bitsOutsideFormat
      ∧ decodeNumbered 32 0 = .error .noSuchFormat := ⟨rfl, rfl, rfl⟩

/-- The `EV` rows of the table match the vectors they name (R72, R78). -/
theorem test_ev_rows :
    (evRows.map fun r => (r.mnemonic, [0b001, 0b010, 0b011, 0b100, 0b111].filter fun e : EvVec => e &&& r.mask == r.pattern))
      = [("RESET", [0b100, 0b111]), ("EDGE", [0b001]), ("TICK", [0b010])] := by decide

/-- The operations of one instant, in order (R186). -/
theorem test_instant_ops :
    instantOps 0b011 (some 0x80001) = [.edge, .tick, .enableO] ∧ instantOps 0b111 (some 0x80001) = [.reset] :=
  ⟨rfl, rfl⟩

/-- The words a trace prints (R80): five hexadecimal digits, or three bits. -/
theorem test_trace_encoding :
    wordText (encode (.wrPosmax 300)) = "A012C".toList ∧ wordText (encode .reset) = "100".toList
      ∧ wordText (encode (.wrRsv 6 0x1234)) = "E1234".toList := by decide

/-- The lines a trace prints (R80): the mnemonic, then a reserved address as one digit, then the word. -/
theorem test_trace_line :
    traceLine .enableO = "ENABLE.O".toList ∧ traceLine (.rdRsv 7) = "RD.RSV 7".toList
      ∧ traceLine (.wrPostgt (-1)) = "WR.POSTGT 0xFFFF".toList := by decide

/-! ## Well-formedness refuses an operand outside its row's range (R78, R79) -/

theorem test_wf_refuses_command_value : WellFormed (.wrCsrRsv 4) = false := rfl
theorem test_wf_refuses_write_address : WellFormed (.wrRsv 5 0) = false := rfl
theorem test_wf_refuses_read_address : WellFormed (.rdRsv 0) = false := rfl
theorem test_wf_accepts_bounds :
    WellFormed (.wrCsrRsv 5) = true ∧ WellFormed (.wrRsv 6 0xFFFF) = true ∧ WellFormed (.rdRsv 7) = true :=
  ⟨rfl, rfl, rfl⟩

/-! ## One step of each operation (95_test_vectors.md, section 2) -/

theorem test_M3_enable_o : exec (.enableO) (testState .disabled 9 300 5 7 44 false)
    = .next (testState .opening 9 300 5 0 0 true) := rfl
theorem test_M4_enable_o_same : exec (.enableO) (testState .opening 0 0 0 2 2 true)
    = .next (testState .opening 0 0 0 2 2 true) := rfl
theorem test_M2_enable_c : exec (.enableC) (testState .disabled 0 0 0 0 0 false)
    = .next (testState .closing 0 0 0 0 0 true) := rfl
theorem test_M6_reversal : exec (.enableC) (testState .opening 1 0 0 2 2 true)
    = .next (testState .closing 1 0 0 0 0 true) := rfl
theorem test_M8_disable : exec (.disable) (testState .opening 0 0 0 2 9 true)
    = .next (testState .disabled 0 0 0 2 9 true) := rfl
theorem test_M11_nop : exec (.nop) (testState .closing (-4) 0 0 1 6 true)
    = .next (testState .closing (-4) 0 0 1 6 true) := rfl
theorem test_E2_edge_closing : exec (.edge) (testState .closing 0 0 0 3 5 true)
    = .next (testState .closing (-1) 0 0 0 5 true) := rfl
theorem test_E4_edge_wraps : exec (.edge) (testState .opening 32767 0 0 0 0 true)
    = .next (testState .opening (-32768) 0 0 0 0 true) := rfl
theorem test_E7_zpos : exec (.zpos) (testState .disabled (-300) 0 0 4 302 false)
    = .next (testState .disabled 0 0 0 4 302 false) := rfl
theorem test_T3_stall : exec (.tick) (testState .opening 0 0 0 3 3 true)
    = .next { testState .disabled 0 0 0 4 3 false with ret := .k false } := rfl
theorem test_T17_arrival_signed : exec (.tick) (testState .opening 0 300 (-1) 0 0 true)
    = .next { testState .disabled 0 300 (-1) 1 1 false with ret := .k false } := rfl
theorem test_A1_rd_csr_disabled : exec (.rdCsr) (testState .disabled 0 0 0 0 0 false)
    = .next { testState .disabled 0 0 0 0 0 false with ret := .q 0x0000 } := rfl
theorem test_A3_rd_csr_closing : exec (.rdCsr) (testState .closing 0 0 0 0 0 true)
    = .next { testState .closing 0 0 0 0 0 true with ret := .q 0x003A } := rfl
theorem test_A5_rd_pos : exec (.rdPos) (testState .disabled (-300) 0 0 4 302 false)
    = .next { testState .disabled (-300) 0 0 4 302 false with ret := .q 0xFED4 } := rfl
theorem test_A6_rd_posmax : exec (.rdPosmax) (testState .disabled 0 300 0 0 0 false)
    = .next { testState .disabled 0 300 0 0 0 false with ret := .q 0x012C } := rfl
theorem test_A7_rd_postgt : exec (.rdPostgt) (testState .disabled 0 300 150 0 0 false)
    = .next { testState .disabled 0 300 150 0 0 false with ret := .q 0x0096 } := rfl
theorem test_A8_rd_tot : exec (.rdTot) (testState .opening 0 0 0 2 2 true)
    = .next { testState .opening 0 0 0 2 2 true with ret := .q 0x0002 } := rfl
theorem test_A9_rd_runt : exec (.rdRunt) (testState .disabled 0 0 0 5 5 true)
    = .next { testState .disabled 0 0 0 5 5 true with ret := .q 0x0005 } := rfl
theorem test_A10_rd_rsv : exec (.rdRsv 7) (testState .opening 1 2 3 1 5 true)
    = .next { testState .opening 1 2 3 1 5 true with ret := .q 0x0000 } := rfl
theorem test_A13_wr_posmax : exec (.wrPosmax 0xFFFF) (testState .disabled 0 0 0 0 0 false)
    = .next (testState .disabled 0 (-1) 0 0 0 false) := rfl
theorem test_A14_wr_postgt : exec (.wrPostgt 0x0096) (testState .disabled 0 300 0 0 0 false)
    = .next (testState .disabled 0 300 150 0 0 false) := rfl
theorem test_A15_wr_pos : exec (.wrPos 0) (testState .disabled 7 0 0 0 0 false)
    = .next (testState .disabled 7 0 0 0 0 false) := rfl
theorem test_A16_wr_tot : exec (.wrTot 0) (testState .opening 0 0 0 2 2 true)
    = .next (testState .opening 0 0 0 2 2 true) := rfl
theorem test_A16_wr_runt : exec (.wrRunt 0) (testState .opening 0 0 0 2 2 true)
    = .next (testState .opening 0 0 0 2 2 true) := rfl
theorem test_A17_wr_rsv : exec (.wrRsv 6 0x1234) (testState .opening 1 2 3 1 5 true)
    = .next (testState .opening 1 2 3 1 5 true) := rfl
theorem test_A18_wr_csr_rsv : exec (.wrCsrRsv 7) (testState .opening 0 0 0 0 0 true)
    = .next (testState .opening 0 0 0 0 0 true) := rfl
theorem test_Z1_reset : exec (.reset) (testState .closing (-37) 300 10 2 55 true)
    = .next (testState .disabled 0 0 0 0 0 false) := rfl

/-- The tick of vector T16: the comparison is signed, so `0xFFFE` has not reached `0xFFFF`. -/
theorem test_T16_not_arrived_signed :
    (testEnd (testState .opening (-2) 300 (-1) 0 0 true) (exec .tick (testState .opening (-2) 300 (-1) 0 0 true))).blk.dir
      = .opening := rfl

/-! ## Steps of the schedule -/

/-- An edge and a tick in one instant: the edge first, the tick left for the next step (R186). -/
theorem test_instant_edge_then_tick :
    step (testSched (testState .opening 0 0 0 3 3 true) [.instant 0b011 none])
      = .next (testSched (testState .opening 1 0 0 0 3 true) [.instant 0b010 none]) := rfl

/-- `RESET` discards the rest of its instant (R186). -/
theorem test_instant_reset_discards :
    step (testSched (testState .opening 5 0 0 3 3 true) [.instant 0b111 (some 0x80001)])
      = .next (testState .disabled 0 0 0 0 0 false) := rfl

/-- A changed level of the pin is one edge, and the level is kept (R108). -/
theorem test_sample_counts_edge :
    (testEnd (testState .opening 0 0 0 3 3 true)
      (step { testSched (testState .opening 0 0 0 3 3 true) [.sample] with sense := true })).blk
      = { (testState .opening 1 0 0 0 3 true).blk with senseQ := true } := rfl

/-- A word placed by `withFetchWord` runs next, whatever the schedule holds (log 1). -/
theorem test_fetch_word_runs_next :
    step ((testSched (testState .disabled 0 0 0 0 0 false) [.turn]).withFetchWord 24 0x80001)
      = .next (testSched (testState .opening 0 0 0 0 0 true) [.turn]) := rfl

/-! ## HOST sequences -/

/-- Vector S7: 400 is clamped to `POSMAX`, -7 to 0 (R165). -/
theorem test_S7_clamp : clampTarget 400 300 = 300 ∧ clampTarget (-7) 300 = 0 := by decide

/-- Line 8 of `CALIBRATE` on vector S5: `p = -300` gives `m = 300 = 0x012C` (R160). -/
theorem test_S5_travel : negPos 0xFED4 = 0x012C := by decide

/-- Vector S6b and program P3: 151 reached the target 150, 4 did not reach 5 (R182). -/
theorem test_seek_outcome :
    seekOutcome .opening 150 151 = .arrived ∧ seekOutcome .opening 5 4 = .stallTimeout
      ∧ seekOutcome .closing 0 (-2) = .arrived := by decide

/-- The range check of `CALIBRATE` is strict (R163, vector S3): exactly the minimum succeeds, one less fails. -/
theorem test_S3_minimum_range :
    hostNext (testState .disabled 0 0 0 0 0 false).par 0 (.calZeroEnd 100) = .done .calOk
      ∧ hostNext (testState .disabled 0 0 0 0 0 false).par 0 (.calZeroEnd 99) = .calUnset := by decide

/-! ## Witnesses: every statement's hypotheses are met -/

/-- EncodedInstructionDecodesBack, at both ends of the reserved ranges. -/
theorem wit_EncodedInstructionDecodesBack :
    WellFormed (.wrCsrRsv 5) = true ∧ WellFormed (.wrCsrRsv 0xFFFF) = true ∧ WellFormed (.wrRsv 6 0) = true
      ∧ WellFormed (.wrRsv 7 0xFFFF) = true ∧ WellFormed (.rdRsv 6) = true ∧ WellFormed .tick = true := by decide

/-- BusDecodeIsFirstMatchingRow, the last clause at its bounds. -/
theorem wit_BusDecodeIsFirstMatchingRow : 5 ≤ (5 : Word).toNat ∧ 5 ≤ (0xFFFF : Word).toNat := by decide

/-- EventVectorOperations and ResetWritesEveryField: the vectors with bit 2 set. -/
theorem wit_EventVectorOperations :
    (0b100 : EvVec).getLsbD 2 = true ∧ (0b101 : EvVec).getLsbD 2 = true ∧ (0b110 : EvVec).getLsbD 2 = true
      ∧ (0b111 : EvVec).getLsbD 2 = true := by decide

/-- StepRunsDecodedOperation, on both paths. -/
theorem wit_StepRunsDecodedOperation :
    (testSched (testState .disabled 0 0 0 0 0 false) [.instant 0 (some 0x80001), .turn]).arrivals
        = arrivalOf (.bus 0x80001) :: [.turn]
      ∧ decodeWord (.bus 0x80001) = .ok .enableO
      ∧ (testSched (testState .disabled 0 0 0 0 0 false) [.instant 0b010 none]).arrivals = arrivalOf (.ev 0b010) :: []
      ∧ decodeWord (.ev 0b010) = .ok .tick := ⟨rfl, rfl, rfl, rfl⟩

/-- PlacedWordRunsNext, for both formats as the table numbers them. -/
theorem wit_PlacedWordRunsNext :
    decodeTableWord 24 0xA012C = some (.wrPosmax 300) ∧ decodeTableWord 20 0x70000 = some (.rdRsv 7)
      ∧ decodeTableWord 8 0b100 = some .reset ∧ decodeTableWord 3 0b001 = some .edge := ⟨rfl, rfl, rfl, rfl⟩

/-- InstantRunsInPriorityOrder: an instant with `RESET`, one with all of the other three, one with the HOST's
transaction alone. -/
theorem wit_InstantRunsInPriorityOrder :
    (testSched (testState .opening 0 0 0 3 3 true) [.instant 0b111 (some 0x80001)]).arrivals
        = .instant 0b111 (some 0x80001) :: []
      ∧ (0b111 : EvVec).getLsbD 2 = true
      ∧ (testSched (testState .opening 0 0 0 3 3 true) [.instant 0b011 (some 0x80003)]).arrivals
        = .instant 0b011 (some 0x80003) :: []
      ∧ (0b011 : EvVec).getLsbD 2 = false
      ∧ [Instr.edge, .tick, .disable] = (if (0b011 : EvVec).getLsbD 0 = true then [Instr.edge] else [])
          ++ ((if (0b011 : EvVec).getLsbD 1 = true then [Instr.tick] else [])
            ++ ((some 0x80003 : Option BusWord).map decodeBus).toList)
      ∧ [Instr.disable] = (if (0b000 : EvVec).getLsbD 0 = true then [Instr.edge] else [])
          ++ ((if (0b000 : EvVec).getLsbD 1 = true then [Instr.tick] else [])
            ++ ((some 0x80003 : Option BusWord).map decodeBus).toList) := by decide

/-- EdgeTickOrderIsObservable, the start of vectors T20 and T21. -/
theorem wit_EdgeTickOrderIsObservable :
    Safe (testState .opening 0 0 0 3 3 true) ∧ (testState .opening 0 0 0 3 3 true).blk.dir = .opening
      ∧ (testState .opening 0 0 0 3 3 true).blk.posmax = 0
      ∧ (testState .opening 0 0 0 3 3 true).blk.tot = (testState .opening 0 0 0 3 3 true).par.stallThreshold
      ∧ 1 ≤ (testState .opening 0 0 0 3 3 true).par.stallThreshold.toNat := by decide

/-- OperationsTouchOnlyTheBlock: an operation and a step that answer a next state. -/
theorem wit_OperationsTouchOnlyTheBlock :
    exec .disable (testState .opening 0 0 0 2 9 true) = .next (testState .disabled 0 0 0 2 9 true)
      ∧ step (testSched (testState .opening 0 0 0 2 9 true) [.instant 0 (some 0x80003)])
        = .next (testState .disabled 0 0 0 2 9 true) := ⟨rfl, rfl⟩

/-- EmptyScheduleKeepsState. -/
theorem wit_EmptyScheduleKeepsState : (testState .opening 0 0 0 2 9 true).arrivals = [] := rfl

/-- ResetStateValues: the machine after reset, and the record vector Z1 ends in. -/
theorem wit_ResetStateValues :
    (State.reset.blk = State.reset.blk ∧ State.reset.sense = State.reset.sense)
      ∧ exec .reset (testState .closing (-37) 300 10 2 55 true) = .next (testState .disabled 0 0 0 0 0 false) :=
  ⟨⟨rfl, rfl⟩, rfl⟩

/-- PowerUpResetsBlockAndHost. -/
theorem wit_PowerUpResetsBlockAndHost :
    (testSched (testState .opening 0 0 0 2 9 true) [.powerUp, .turn]).arrivals = .powerUp :: [.turn] := rfl

/-- EnableEffectOnTheRecord and SameDirectionEnableDoesNothing: both directions, already set and not. -/
theorem wit_EnableEffectOnTheRecord :
    ((Instr.enableO = .enableO ∧ Dir.opening = .opening) ∨ (Instr.enableO = .enableC ∧ Dir.opening = .closing))
      ∧ ((Instr.enableC = .enableO ∧ Dir.closing = .opening) ∨ (Instr.enableC = .enableC ∧ Dir.closing = .closing))
      ∧ (testState .opening 0 0 0 2 2 true).blk.dir = .opening
      ∧ (testState .closing 0 0 0 2 2 true).blk.dir = .closing
      ∧ (testState .disabled 0 0 0 2 2 true).blk.dir ≠ .opening
      ∧ (testState .opening 0 0 0 2 2 true).blk.dir ≠ .closing := by decide

/-- EnableOpeningCommand: its corner cases; the stale target equal to the position (vector M12: below it). -/
theorem wit_EnableOpeningCommand :
    (testState .opening 0 0 0 2 2 true).blk.dir = .opening
      ∧ (testState .disabled 5 300 5 0 0 false).blk.dir ≠ .opening
      ∧ (testState .disabled 5 300 5 0 0 false).blk.posmax ≠ 0
      ∧ (testState .disabled 5 300 5 0 0 false).blk.postgt.toInt
        ≤ (testState .disabled 5 300 5 0 0 false).blk.pos.toInt := by decide

/-- EnableClosingCommand: the same, from an opening drive. -/
theorem wit_EnableClosingCommand :
    (testState .closing 0 0 0 2 2 true).blk.dir = .closing
      ∧ (testState .opening 5 300 5 0 0 true).blk.dir ≠ .closing
      ∧ (testState .opening 5 300 5 0 0 true).blk.posmax ≠ 0
      ∧ (testState .opening 5 300 5 0 0 true).blk.pos.toInt
        ≤ (testState .opening 5 300 5 0 0 true).blk.postgt.toInt := by decide

/-- ReversalInOneStep, the starts of vectors M6 and M7. -/
theorem wit_ReversalInOneStep :
    ((Instr.enableC = .enableC ∧ Dir.opening = .opening ∧ Dir.closing = .closing)
        ∨ (Instr.enableC = .enableO ∧ Dir.opening = .closing ∧ Dir.closing = .opening))
      ∧ (testState .opening 1 0 0 2 2 true).blk.dir = .opening ∧ (testState .opening 1 0 0 2 2 true).blk.ticken = true
      ∧ ((Instr.enableO = .enableC ∧ Dir.closing = .opening ∧ Dir.opening = .closing)
        ∨ (Instr.enableO = .enableO ∧ Dir.closing = .closing ∧ Dir.opening = .opening))
      ∧ (testState .closing 1 0 0 2 2 true).blk.dir = .closing
      ∧ (testState .closing 1 0 0 2 2 true).blk.ticken = true := by decide

/-- DisableWritesDirectionAlone, its last clause (vector M9). -/
theorem wit_DisableWritesDirectionAlone : (testState .disabled 0 0 0 2 9 true).blk.dir = .disabled := rfl

/-- DisableAndTickInEitherOrder: a stalling tick, an arriving one at the threshold, and one that does not stop. -/
theorem wit_DisableAndTickInEitherOrder :
    (3 : Word).toNat < ((testState .opening 0 0 0 3 3 true).blk.tot.toNat + 1) % 2 ^ 16
      ∧ ((testState .opening 150 300 150 2 3 true).blk.dir ≠ .disabled
        ∧ ((testState .opening 150 300 150 2 3 true).blk.tot.toNat + 1) % 2 ^ 16 ≤ (3 : Word).toNat
        ∧ (testState .opening 150 300 150 2 3 true).blk.posmax ≠ 0
        ∧ (testState .opening 150 300 150 2 3 true).blk.arrived = true)
      ∧ ((testState .opening 149 300 150 2 3 true).blk.dir ≠ .disabled
        ∧ ((testState .opening 149 300 150 2 3 true).blk.tot.toNat + 1) % 2 ^ 16 ≤ (3 : Word).toNat
        ∧ (testState .opening 149 300 150 2 3 true).blk.arrived = false) := by decide

/-- DriveStartsAndEndsOnlySo: a start by `ENABLE.C`, an end by a stalling tick, one by an arriving tick. -/
theorem wit_DriveStartsAndEndsOnlySo :
    exec .enableC (testState .disabled 0 0 0 0 0 false) = .next (testState .closing 0 0 0 0 0 true)
      ∧ exec .tick (testState .opening 0 0 0 3 3 true)
        = .next { testState .disabled 0 0 0 4 3 false with ret := .k false }
      ∧ exec .tick (testState .opening 150 300 150 0 40 true)
        = .next { testState .disabled 150 300 150 1 41 false with ret := .k false } := ⟨rfl, rfl, rfl⟩

/-- OutputsFollowTheRecord, its last clause. -/
theorem wit_OutputsFollowTheRecord :
    (testState .opening 0 0 0 0 0 true).blk.dir ≠ .disabled
      ∧ (testState .closing 0 0 0 0 0 true).blk.dir ≠ .disabled := by decide

/-- ReservedEncodingsChangeNothing, each range at both its ends. -/
theorem wit_ReservedEncodingsChangeNothing :
    (0x60000 ≤ (0x60000 : BusWord).toNat ∧ (0x60000 : BusWord).toNat ≤ 0x7FFFF)
      ∧ (0x60000 ≤ (0x7FFFF : BusWord).toNat ∧ (0x7FFFF : BusWord).toNat ≤ 0x7FFFF)
      ∧ 0xE0000 ≤ (0xE0000 : BusWord).toNat ∧ 0xE0000 ≤ (0xFFFFF : BusWord).toNat
      ∧ (0x80005 ≤ (0x80005 : BusWord).toNat ∧ (0x80005 : BusWord).toNat ≤ 0x8FFFF)
      ∧ (0x80005 ≤ (0x8FFFF : BusWord).toNat ∧ (0x8FFFF : BusWord).toNat ≤ 0x8FFFF) := by decide

/-- EdgeMovesPositionByDirection: the three directions, and both wraps (vectors E3, E4, E5). -/
theorem wit_EdgeMovesPositionByDirection :
    ((testState .opening 32767 0 0 0 0 true).blk.dir = .opening
        ∧ (testState .opening 32767 0 0 0 0 true).blk.pos = 0x7FFF)
      ∧ ((testState .closing (-32768) 0 0 0 0 true).blk.dir = .closing
        ∧ (testState .closing (-32768) 0 0 0 0 true).blk.pos = 0x8000)
      ∧ (testState .disabled 7 0 0 9 0 false).blk.dir = .disabled := by decide

/-- EdgesCountedExactlyOnce, in both directions. -/
theorem wit_EdgesCountedExactlyOnce :
    (testState .opening 0 0 0 0 0 true).blk.dir ≠ .disabled
      ∧ (testState .closing 0 0 0 0 0 true).blk.dir ≠ .disabled := by decide

/-- EdgesWhileDisabledAreLost. -/
theorem wit_EdgesWhileDisabledAreLost : (testState .disabled 7 0 0 9 0 false).blk.dir = .disabled := rfl

/-- ZeroPositionCommand: the position already zero, and both directions. -/
theorem wit_ZeroPositionCommand :
    (testState .disabled 0 0 0 0 0 false).blk.pos = 0 ∧ (testState .opening 12 0 0 1 3 true).blk.dir = .opening
      ∧ (testState .closing 12 0 0 1 3 true).blk.dir = .closing := by decide

/-- SamplerIssuesEdgeOnChange: an unchanged level and a changed one. -/
theorem wit_SamplerIssuesEdgeOnChange :
    (testSched (testState .opening 0 0 0 0 0 true) [.sample]).arrivals = .sample :: []
      ∧ (testSched (testState .opening 0 0 0 0 0 true) [.sample]).sense
        = (testSched (testState .opening 0 0 0 0 0 true) [.sample]).blk.senseQ
      ∧ ({ testSched (testState .opening 0 0 0 0 0 true) [.sample] with sense := true } : State).sense
        ≠ ({ testSched (testState .opening 0 0 0 0 0 true) [.sample] with sense := true } : State).blk.senseQ := by
  decide

/-- StallStopsAboveThreshold: the count 4 is above the threshold 3, the count 3 is not (vectors T3 and T2). -/
theorem wit_StallStopsAboveThreshold :
    3 < (testEnd (testState .opening 0 0 0 3 3 true) (exec .tick (testState .opening 0 0 0 3 3 true))).blk.tot.toNat
      ∧ (testEnd (testState .opening 0 0 0 2 2 true)
          (exec .tick (testState .opening 0 0 0 2 2 true))).blk.tot.toNat ≤ 3
      ∧ ¬ ((testState .opening 0 0 0 2 2 true).blk.posmax ≠ 0
        ∧ (testState .opening 0 0 0 2 2 true).blk.arrived = true) := by decide

/-- ArrivalStopsCalibratedDrive: both directions at the target, and an uncalibrated drive; the count reaches the
threshold exactly. -/
theorem wit_ArrivalStopsCalibratedDrive :
    ((testState .opening 150 300 150 2 40 true).blk.tot.toNat + 1) % 2 ^ 16
        ≤ (testState .opening 150 300 150 2 40 true).par.stallThreshold.toNat
      ∧ ((testState .opening 150 300 150 2 40 true).blk.posmax ≠ 0
        ∧ (testState .opening 150 300 150 2 40 true).blk.dir = .opening)
      ∧ ((testState .closing 150 300 150 2 0 true).blk.posmax ≠ 0
        ∧ (testState .closing 150 300 150 2 0 true).blk.dir = .closing)
      ∧ (testState .opening 5 0 0 2 0 true).blk.posmax = 0 := by decide

/-- TickReturnsAndKeepsRequest, its last two clauses. -/
theorem wit_TickReturnsAndKeepsRequest :
    (testState .disabled 0 0 0 1 1 true).blk.dir = .disabled
      ∧ (testState .disabled 7 0 0 9 0 false).blk.ticken = false
      ∧ exec .edge (testState .disabled 7 0 0 9 0 false) = .next (testState .disabled 7 0 0 0 0 false) :=
  ⟨rfl, rfl, rfl⟩

/-- TickInItsFourCases: off; stalled; arrived in both directions; driving on, uncalibrated and in both
directions; the count at the threshold where it may be. -/
theorem wit_TickInItsFourCases :
    (testState .disabled 0 0 0 65535 0 false).blk.dir = .disabled
      ∧ ((testState .opening 0 0 0 3 3 true).blk.dir ≠ .disabled
        ∧ 3 < ((testState .opening 0 0 0 3 3 true).blk.tot.toNat + 1) % 2 ^ 16)
      ∧ (((testState .opening 150 300 150 2 40 true).blk.tot.toNat + 1) % 2 ^ 16 ≤ 3
        ∧ (testState .opening 150 300 150 2 40 true).blk.posmax ≠ 0
        ∧ (testState .opening 150 300 150 2 40 true).blk.dir = .opening
        ∧ (testState .opening 150 300 150 2 40 true).blk.postgt.toInt
          ≤ (testState .opening 150 300 150 2 40 true).blk.pos.toInt)
      ∧ ((testState .closing 150 300 150 2 40 true).blk.dir = .closing
        ∧ (testState .closing 150 300 150 2 40 true).blk.pos.toInt
          ≤ (testState .closing 150 300 150 2 40 true).blk.postgt.toInt)
      ∧ (testState .opening 5 0 0 2 0 true).blk.posmax = 0
      ∧ ((testState .opening 149 300 150 2 40 true).blk.dir = .opening
        ∧ (testState .opening 149 300 150 2 40 true).blk.pos.toInt
          < (testState .opening 149 300 150 2 40 true).blk.postgt.toInt)
      ∧ ((testState .closing 151 300 150 2 40 true).blk.dir = .closing
        ∧ (testState .closing 151 300 150 2 40 true).blk.postgt.toInt
          < (testState .closing 151 300 150 2 40 true).blk.pos.toInt) := by decide

/-- StallFiresRightAfterThreshold, with `k` 0 and `k` the threshold: an uncalibrated drive, and the calibrated ones
one short of their targets. -/
theorem wit_StallFiresRightAfterThreshold :
    Safe (testState .opening 0 0 0 0 0 true) ∧ (testState .opening 0 0 0 0 0 true).blk.dir ≠ .disabled
      ∧ (testState .opening 0 0 0 0 0 true).blk.tot = 0 ∧ (testState .opening 0 0 0 0 0 true).blk.posmax = 0
      ∧ 0 ≤ (testState .opening 0 0 0 0 0 true).par.stallThreshold.toNat
      ∧ 3 = (testState .opening 0 0 0 0 0 true).par.stallThreshold.toNat
      ∧ Safe (testState .opening 149 300 150 0 0 true)
      ∧ (testState .opening 149 300 150 0 0 true).blk.arrived = false
      ∧ Safe (testState .closing 151 300 150 0 0 true)
      ∧ (testState .closing 151 300 150 0 0 true).blk.arrived = false := by decide

/-- DrivingIsBoundedWithoutEdges: two ticks past a count of 2, among other operations. -/
theorem wit_DrivingIsBoundedWithoutEdges :
    Safe (testState .opening 0 0 0 2 2 true)
      ∧ [Instr.tick, .rdCsr, .zpos, .wrPostgt 9, .tick].all leavesStallCount = true
      ∧ (testState .opening 0 0 0 2 2 true).par.stallThreshold.toNat
        < (testState .opening 0 0 0 2 2 true).blk.tot.toNat
          + [Instr.tick, .rdCsr, .zpos, .wrPostgt 9, .tick].count .tick := by decide

/-- RunTimeCountSteersNothing: a tick of a drive (vector T1). -/
theorem wit_RunTimeCountSteersNothing :
    Instr.tick ≠ .rdRunt ∧ exec .tick (testState .opening 0 0 0 0 0 true)
      = .next { testState .opening 0 0 0 1 1 true with ret := .k true } := ⟨by decide, rfl⟩

/-- OvershootAtMostTheEdgesBetweenTicks: three edges from one short of the target, in both directions, to the end
of the signed range. -/
theorem wit_OvershootAtMostTheEdgesBetweenTicks :
    (testState .opening 32764 32767 32765 0 0 true).blk.posmax ≠ 0
      ∧ (testState .opening 32764 32767 32765 0 0 true).blk.dir = .opening
      ∧ (testState .opening 32764 32767 32765 0 0 true).blk.pos.toInt
        < (testState .opening 32764 32767 32765 0 0 true).blk.postgt.toInt
      ∧ (testState .opening 32764 32767 32765 0 0 true).blk.pos.toInt + (3 : Nat) < 2 ^ 15
      ∧ (testState .closing (-32765) 5 (-32766) 0 0 true).blk.dir = .closing
      ∧ (testState .closing (-32765) 5 (-32766) 0 0 true).blk.postgt.toInt
        < (testState .closing (-32765) 5 (-32766) 0 0 true).blk.pos.toInt
      ∧ -(2 ^ 15) ≤ (testState .closing (-32765) 5 (-32766) 0 0 true).blk.pos.toInt - (3 : Nat) := by decide

/-- PositionCanEndBeyondRange, the counter-example of vector S1. -/
theorem wit_PositionCanEndBeyondRange :
    (testState .opening 299 300 300 1 299 true).blk.dir = .opening
      ∧ (testState .opening 299 300 300 1 299 true).blk.postgt = (testState .opening 299 300 300 1 299 true).blk.posmax
      ∧ 0 < (testState .opening 299 300 300 1 299 true).blk.posmax.toInt
      ∧ (testState .opening 299 300 300 1 299 true).blk.posmax.toInt + 1 < 2 ^ 15
      ∧ (testState .opening 299 300 300 1 299 true).blk.pos.toInt + 1
        = (testState .opening 299 300 300 1 299 true).blk.posmax.toInt := by decide

/-- StepKeepsSafe: a driving state at the threshold, and a step from it. -/
theorem wit_StepKeepsSafe :
    Safe (testSched (testState .opening 0 0 0 3 3 true) [.instant 0b001 none])
      ∧ step (testSched (testState .opening 0 0 0 3 3 true) [.instant 0b001 none])
        = .next (testState .opening 1 0 0 0 3 true) := ⟨by decide, rfl⟩

/-- WritersOfEachField: for each field an operation that changes it, and a sample. -/
theorem wit_WritersOfEachField :
    exec .disable (testState .opening 0 0 0 2 9 true) = .next (testState .disabled 0 0 0 2 9 true)
      ∧ exec .edge (testState .opening 0 0 0 2 5 true) = .next (testState .opening 1 0 0 0 5 true)
      ∧ exec (.wrPosmax 300) (testState .disabled 0 0 0 0 0 false) = .next (testState .disabled 0 300 0 0 0 false)
      ∧ exec (.wrPostgt 150) (testState .disabled 0 300 0 0 0 false) = .next (testState .disabled 0 300 150 0 0 false)
      ∧ exec .enableO (testState .disabled 9 300 5 7 44 false) = .next (testState .opening 9 300 5 0 0 true)
      ∧ exec .reset { testState .disabled 0 0 0 0 0 false with sense := true }
        = .next { testState .disabled 0 0 0 0 0 false with
            sense := true, blk := { (testState .disabled 0 0 0 0 0 false).blk with senseQ := true } }
      ∧ step (testSched (testState .opening 0 0 0 0 0 true) [.sample])
        = .next (testState .opening 0 0 0 0 0 true) := ⟨rfl, rfl, rfl, rfl, rfl, rfl, rfl⟩

/-- SenseLatchSteersNothing and TickRequestGatesNothing: an edge and a tick that answer a next state. -/
theorem wit_SenseLatchSteersNothing :
    exec .edge (testState .closing 0 0 0 3 5 true) = .next (testState .closing (-1) 0 0 0 5 true)
      ∧ Instr.edge ≠ .reset ∧ Instr.tick ≠ .rdCsr
      ∧ exec .tick (testState .disabled 0 0 0 1 1 true)
        = .next { testState .disabled 0 0 0 2 1 false with ret := .k false } :=
  ⟨rfl, by decide, by decide, rfl⟩

/-- ReadsReturnTheMapAndChangeNothing: a run of operations that answers a next state. -/
theorem wit_ReadsReturnTheMapAndChangeNothing :
    runOps [.rdCsr, .edge, .rdPos] (testState .opening 0 0 0 2 5 true)
      = .next { testState .opening 1 0 0 0 5 true with ret := .q 0x0001 } := rfl

/-- StatusWordLayout, the premise of its last clause. -/
theorem wit_StatusWordLayout :
    (testState .opening 0 0 0 0 0 true).blk.dir ≠ .disabled → (testState .opening 0 0 0 0 0 true).blk.ticken = true := by
  decide

/-- WritesPerformTheMap: addresses that change nothing, and at address 0 the data at both ends of each range. -/
theorem wit_WritesPerformTheMap :
    (7 : Addr) ≠ 0 ∧ (7 : Addr) ≠ 2 ∧ (7 : Addr) ≠ 3 ∧ (1 : Addr) ≠ 0 ∧ (1 : Addr) ≠ 2 ∧ (1 : Addr) ≠ 3
      ∧ ((0 : Word) = 0 ∨ 5 ≤ (0 : Word).toNat) ∧ ((5 : Word) = 0 ∨ 5 ≤ (5 : Word).toNat)
      ∧ ((0xFFFF : Word) = 0 ∨ 5 ≤ (0xFFFF : Word).toNat) ∧ ¬ ((4 : Word) = 0 ∨ 5 ≤ (4 : Word).toNat) := by decide

/-- The schedule of a calibration that stalls at once at both stops, with edges of the close phase in between;
the parameters of `testCal` let a count of 0 or 1 decide. -/
def testCal (minRange maxOpen threshold : Word) (l : List Arrival) : State :=
  { testState .disabled 7 300 5 9 9 false with
    par := { stallThreshold := threshold, maxOpenTicks := maxOpen, maxCloseTicks := 0, motorMinRange := minRange }
    arrivals := l }

/-- What follows the call in a calibration whose phases both end by a stall. -/
def testCalRest (edges : List Arrival) : List Arrival :=
  [.turn, .turn, .instant 0b010 none, .turn, .turn, .turn] ++ edges
    ++ [.instant 0b010 none, .turn, .turn, .turn, .turn, .turn]

/-- What follows the call in a calibration whose open phase exceeds its bound. -/
def testOverrun : List Arrival :=
  [.turn, .turn, .instant 0b010 none, .instant 0b010 none, .turn, .turn, .turn, .turn]

/-- CalibrationOutcome: a run that ends in `Ok` (`MOTOR_MIN_RANGE` 1, one edge), the first of all. -/
theorem wit_CalibrationOutcome_ok :
    Safe (testCal 1 1 0 (.call .calibrate :: testCalRest [.instant 0b001 none]))
      ∧ (testCal 1 1 0 (.call .calibrate :: testCalRest [.instant 0b001 none])).host.running = false
      ∧ (testCal 1 1 0 (.call .calibrate :: testCalRest [.instant 0b001 none])).blk.dir = .disabled
      ∧ (testCalRest [.instant 0b001 none]).all whileSequenceRuns = true
      ∧ testHost (runSteps 13 (testCal 1 1 0 (.call .calibrate :: testCalRest [.instant 0b001 none])))
        = some (.done .calOk) := by decide

/-- CalibrationOutcome: a calibration that returned an error is called again; and the range check one below the
minimum and at it, with two turns next. -/
theorem wit_CalibrationOutcome_again :
    ({ testCal 1 1 0 (.call .calibrate :: testCalRest []) with
        host := .done (.calErr .runtimeExceeded) } : State).host.running = false
      ∧ ({ testCal 100 1 0 [.turn, .turn] with host := .calZeroEnd 100 } : State).host = .calZeroEnd 100
      ∧ ({ testCal 100 1 0 [.turn, .turn] with host := .calZeroEnd 100 } : State).arrivals = .turn :: .turn :: []
      ∧ (testCal 100 1 0 [.turn, .turn]).par.motorMinRange.toInt ≤ (100 : Word).toInt
      ∧ (99 : Word).toInt < (testCal 100 1 0 [.turn, .turn]).par.motorMinRange.toInt := by decide

/-- CalibrationOutcome: a run that ends in `RangeTooSmall` (no edge). -/
theorem wit_CalibrationOutcome_range :
    (testCalRest []).all whileSequenceRuns = true
      ∧ testHost (runSteps 13 (testCal 1 1 0 (.call .calibrate :: testCalRest [])))
        = some (.done (.calErr .rangeTooSmall)) := by decide

/-- CalibrationOutcome: a run that ends in `RuntimeExceeded` (bound 1, two ticks, threshold 3). -/
theorem wit_CalibrationOutcome_runtime :
    Safe (testCal 1 1 3 (.call .calibrate :: testOverrun)) ∧ testOverrun.all whileSequenceRuns = true
      ∧ testHost (runSteps 9 (testCal 1 1 3 (.call .calibrate :: testOverrun)))
        = some (.done (.calErr .runtimeExceeded)) := by decide

/-- SequencesReturnWithMotorOff: a phase on its own that ends by a stall, as the first sequence; and a seek to the
present position, called after a calibration has returned `Ok`. -/
theorem wit_SequencesReturnWithMotorOff :
    (testCal 1 1 0 [.call (.phase .closing 9), .turn, .instant 0b010 none, .turn]).host.running = false
      ∧ (testCal 1 1 0 [.call (.phase .closing 9), .turn, .instant 0b010 none, .turn]).blk.dir = .disabled
      ∧ [Arrival.turn, .instant 0b010 none, .turn].all whileSequenceRuns = true
      ∧ testHost (runSteps 4 (testCal 1 1 0 [.call (.phase .closing 9), .turn, .instant 0b010 none, .turn]))
        = some (.done (.phase true))
      ∧ (HostPt.done .calOk).running = false
      ∧ testHost (runSteps 3 { testSched (testState .disabled 0 300 0 0 0 false) [.call (.seek 0), .turn, .turn] with
          host := .done .calOk }) = some (.done .sought) := by decide

/-- SeekClampsAndDrives: a calibrated block at rest, a target above the range and one equal to the position; an
uncalibrated block; a wait with a turn next. -/
theorem wit_SeekClampsAndDrives :
    (testState .disabled 0 300 0 4 302 false).host.running = false
      ∧ (testState .disabled 0 300 0 4 302 false).blk.dir = .disabled
      ∧ (testState .disabled 0 300 0 4 302 false).blk.posmax ≠ 0
      ∧ (testSched (testState .disabled 0 300 0 4 302 false)
          [.call (.seek 400), .turn, .turn, .turn, .turn]).arrivals
        = [.call (.seek 400), .turn, .turn, .turn, .turn] ++ []
      ∧ (300 : Word) ≠ (testState .disabled 0 300 0 4 302 false).blk.pos
      ∧ (testSched (testState .disabled 0 300 0 4 302 false)
          [.call (.seek 0), .turn, .turn, .turn, .turn]).arrivals
        = [.call (.seek 0), .turn, .turn, .turn, .turn] ++ []
      ∧ (0 : Word) = (testState .disabled 0 300 0 4 302 false).blk.pos
      ∧ (testState .disabled 0 0 0 4 302 false).blk.posmax = 0
      ∧ ({ testSched (testState .opening 0 300 150 0 0 true) [.turn] with host := .wait .seek } : State).host
        = .wait .seek
      ∧ (testSched (testState .opening 0 300 150 0 0 true) [.turn]).arrivals = .turn :: [] := by decide

/-- SeekRefusedBeforeCalibration. -/
theorem wit_SeekRefusedBeforeCalibration :
    (testSched (testState .disabled 0 0 0 3 4 false) [.call (.seek 2), .turn]).host.running = false
      ∧ (testSched (testState .disabled 0 0 0 3 4 false) [.call (.seek 2), .turn]).blk.posmax = 0
      ∧ (testSched (testState .disabled 0 0 0 3 4 false) [.call (.seek 2), .turn]).arrivals
        = [.call (.seek 2), .turn] ++ [] := by decide

/-- WaitIdleEndsWhenDisabled: both clauses. -/
theorem wit_WaitIdleEndsWhenDisabled :
    ({ testSched (testState .disabled 0 0 0 0 0 true) [.turn] with host := .wait .own } : State).host = .wait .own
      ∧ (testSched (testState .disabled 0 0 0 0 0 true) [.turn]).arrivals = .turn :: []
      ∧ (testState .disabled 0 0 0 0 0 true).blk.dir = .disabled
      ∧ (testState .opening 0 0 0 0 0 true).blk.dir ≠ .disabled := by decide

/-- CalibrationLines: its points, with a turn next; the range one less than the minimum, and exactly it. -/
theorem wit_CalibrationLines :
    (testSched (testState .disabled (-99) 0 0 0 0 true) [.turn]).arrivals = .turn :: []
      ∧ ({ testState .disabled (-99) 0 0 0 0 true with host := .calClear } : State).host = .calClear
      ∧ ({ testState .disabled (-99) 0 0 0 0 true with host := .calZeroOpen true } : State).host = .calZeroOpen true
      ∧ ({ testState .disabled (-99) 0 0 0 0 true with host := .calReadPos } : State).host = .calReadPos
      ∧ ({ testState .disabled (-99) 0 0 0 0 true with host := .calWriteMax 99 } : State).host = .calWriteMax 99
      ∧ ({ testState .disabled (-99) 99 0 0 0 true with host := .calZeroEnd 99 } : State).host = .calZeroEnd 99
      ∧ (99 : Word).toInt < (testState .disabled (-99) 99 0 0 0 true).par.motorMinRange.toInt
      ∧ ¬ (100 : Word).toInt < (testState .disabled (-99) 99 0 0 0 true).par.motorMinRange.toInt
      ∧ ({ testState .disabled 0 99 0 0 0 true with host := .calUnset } : State).host = .calUnset := by decide

/-- PhaseLines: the four points of a phase, with a turn next. -/
theorem wit_PhaseLines :
    (testSched (testState .disabled 0 0 0 0 0 true) [.turn]).arrivals = .turn :: []
      ∧ ({ testState .disabled 0 0 0 0 0 true with host := .phEnable (.own .opening 4) } : State).host
        = .phEnable (.own .opening 4)
      ∧ ({ testState .opening 0 0 0 0 0 true with host := .phCsr (.own .opening 4) } : State).host
        = .phCsr (.own .opening 4)
      ∧ ({ testState .opening 0 0 0 0 4 true with host := .phRunt (.own .opening 4) } : State).host
        = .phRunt (.own .opening 4)
      ∧ ({ testState .opening 0 0 0 0 5 true with host := .phDisable (.own .opening 4) } : State).host
        = .phDisable (.own .opening 4) := ⟨rfl, rfl, rfl, rfl, rfl⟩

/-- QueriesReturnSnapshots. -/
theorem wit_QueriesReturnSnapshots :
    (testState .disabled 7 0 0 0 0 false).host.running = false
      ∧ (testSched (testState .disabled 7 0 0 0 0 false) [.call .curPos, .turn]).arrivals
        = [.call .curPos, .turn] ++ []
      ∧ (testSched (testState .disabled 7 0 0 0 0 false) [.call .isCal, .turn]).arrivals
        = [.call .isCal, .turn] ++ [] := by decide

end Sys2Proof.Machine
end

section
/-!
The four outputs as functions of `DIR` and `TICKEN` (R29), and the state after `RESET` (R35).
-/

namespace Sys2Proof.Machine

/-! ## The outputs, by `DIR` -/

theorem drvOpen_iff (b : Block) : b.drvOpen = true ↔ b.dir = .opening := decide_eq_true_iff
theorem drvClose_iff (b : Block) : b.drvClose = true ↔ b.dir = .closing := decide_eq_true_iff
theorem active_iff (b : Block) : b.active = true ↔ b.dir ≠ .disabled := running_iff b

theorem calibrated_false_iff (b : Block) : b.calibrated = false ↔ b.posmax = 0 := by simp [Block.calibrated]

theorem drvOpen_of_disabled (b : Block) (h : b.dir = .disabled) : b.drvOpen = false := by
  simp [Block.drvOpen, h]

theorem drvClose_of_disabled (b : Block) (h : b.dir = .disabled) : b.drvClose = false := by
  simp [Block.drvClose, h]

theorem active_of_disabled (b : Block) (h : b.dir = .disabled) : b.active = false :=
  (running_false_iff b).mpr h

/-- `DIR` holds one direction, so the two drive outputs exclude each other. -/
theorem not_drvOpen_and_drvClose (b : Block) : ¬ (b.drvOpen = true ∧ b.drvClose = true) := by
  rw [drvOpen_iff, drvClose_iff]
  rintro ⟨hOpening, hClosing⟩
  exact absurd (hOpening.symm.trans hClosing) (by decide)

theorem drvOpen_ne_drvClose_of_driving (b : Block) (h : b.dir ≠ .disabled) : b.drvOpen ≠ b.drvClose := by
  cases hd : b.dir with
  | disabled => exact absurd hd h
  | opening => simp [Block.drvOpen, Block.drvClose, hd]
  | closing => simp [Block.drvOpen, Block.drvClose, hd]

/-- Settles O24: each output by its own law, then the two facts about the pair of drive outputs. -/
theorem outputsFollowTheRecord : Obligations.OutputsFollowTheRecord := by
  intro b
  exact ⟨drvOpen_iff b, drvClose_iff b, active_iff b, rfl, not_drvOpen_and_drvClose b,
    drvOpen_ne_drvClose_of_driving b⟩

/-! ## The state after `RESET` -/

/-- `RESET` puts the reset record in place, with the level now on the pin (R210). -/
theorem exec_reset (s : State) : exec .reset s = .next (s.complete (Block.reset s.sense) .nothing) := rfl

theorem blk_of_exec_reset {s t : State} (h : exec .reset s = .next t) : t.blk = Block.reset s.sense := by
  rw [exec_reset] at h
  injection h with ht
  rw [← ht, State.complete_blk]

/-- Settles O14: both at power-up and after `RESET` the record is `Block.reset level`, whose fields the laws of the
state give, and whose outputs follow from its `DIR`, `POSMAX` and `TICKEN`. -/
theorem resetStateValues : Obligations.ResetStateValues := by
  intro b level hReset
  have hb : b = Block.reset level := by
    obtain ⟨rfl, rfl⟩ | ⟨s, t, hExec, rfl, rfl⟩ := hReset
    · rfl
    · exact blk_of_exec_reset hExec
  subst hb
  have hDir := Block.reset_dir level
  exact ⟨hDir, Block.reset_pos level, Block.reset_posmax level,
    (calibrated_false_iff _).mpr (Block.reset_posmax level), Block.reset_postgt level, Block.reset_tot level,
    Block.reset_runt level, Block.reset_ticken level, Block.reset_senseQ level,
    drvOpen_of_disabled _ hDir, drvClose_of_disabled _ hDir, active_of_disabled _ hDir,
    Block.reset_ticken level⟩

end Sys2Proof.Machine
end

section
/-!
The register space on the bus (R51): a read performs `memRead` and changes no state (R54), a write performs
`memWrite` (R55).
-/

namespace Sys2Proof.Machine

theorem reservedAddr_cases (a : Addr) (h : ReservedAddr a) : a = 6 ∨ a = 7 := by
  revert a
  decide

/-! ## Reads (R54) -/

/-- A decoded read returns the map's word for its address and leaves the record. -/
theorem exec_decodeRead (a : Addr) (s : State) :
    exec (decodeRead a) s = .next (s.complete s.blk (.q (memRead a s.blk))) := by
  rcases addr_cases a with rfl | rfl | rfl | rfl | rfl | rfl | hReserved
  · rfl
  · rfl
  · rfl
  · rfl
  · rfl
  · rfl
  · rcases reservedAddr_cases a hReserved with rfl | rfl <;> rfl

theorem exec_of_isRead (i : Instr) (s : State) (h : isRead i = true) :
    ∃ w, exec i s = .next (s.complete s.blk (.q w)) := by
  cases i with
  | rdCsr | rdPos | rdPosmax | rdPostgt | rdTot | rdRunt | rdRsv => exact ⟨_, rfl⟩
  | _ => exact absurd h Bool.false_ne_true

/-- No operation sees the result of the operation before it. -/
theorem exec_complete_self (i : Instr) (s : State) (r : Ret) : exec i (s.complete s.blk r) = exec i s := by
  cases i <;> rfl

/-- Dropping the reads of a run keeps the record at its end. A dropped read would have left its own result, so the
induction lets the two runs start with different results. -/
theorem runOps_dropReads (ops : List Instr) (s t : State) (r : Ret)
    (h : runOps ops (s.complete s.blk r) = .next t) :
    ∃ u, runOps (ops.filter fun i => !isRead i) s = .next u ∧ u.blk = t.blk := by
  induction ops generalizing s r with
  | nil =>
    injection h with hEnd
    exact ⟨s, rfl, hEnd ▸ (State.complete_blk s.blk r s).symm⟩
  | cons i ops ih =>
    cases hRead : isRead i with
    | true =>
      obtain ⟨w, hExec⟩ := exec_of_isRead i s hRead
      rw [runOps_cons i ops _ _ ((exec_complete_self i s r).trans hExec)] at h
      rw [List.filter_cons_of_neg (by simp [hRead])]
      exact ih s (.q w) h
    | false =>
      obtain ⟨b, r', hExec⟩ := exec_frame i s
      rw [runOps_cons i ops _ _ ((exec_complete_self i s r).trans hExec)] at h
      rw [List.filter_cons_of_pos (by simp [hRead]), runOps_cons i _ s _ hExec]
      exact ih (s.complete b r') r' h

/-- Settles O47: a read by cases on its address, and the run without its reads by induction on the operations. -/
theorem readsReturnTheMapAndChangeNothing : Obligations.ReadsReturnTheMapAndChangeNothing := by
  refine ⟨fun a d s => ⟨?_, rfl⟩, fun ops s t h => runOps_dropReads ops s t s.ret h⟩
  rw [decodeBus_read, exec_decodeRead, State.complete]

/-! ## Writes (R55) -/

/-- A decoded write performs the map's action for its address and returns nothing. -/
theorem exec_decodeWrite (a : Addr) (v : Word) (s : State) :
    exec (decodeWrite a v) s = .next (s.complete (memWrite a v s.blk) .nothing) := by
  rcases addr_cases a with rfl | rfl | rfl | rfl | rfl | rfl | hReserved
  · exact exec_decodeCommand v s
  · rfl
  · rfl
  · rfl
  · rfl
  · rfl
  · rcases reservedAddr_cases a hReserved with rfl | rfl <;> rfl

theorem memWrite_of_notWritable (a : Addr) (v : Word) (b : Block) (h0 : a ≠ 0) (h2 : a ≠ 2) (h3 : a ≠ 3) :
    memWrite a v b = b := by
  rw [memWrite, if_neg h0, if_neg h2, if_neg h3]

theorem command_one (b : Block) : command 1 b = enableEffect .opening b := rfl
theorem command_two (b : Block) : command 2 b = enableEffect .closing b := rfl
theorem command_three (b : Block) : command 3 b = { b with dir := .disabled } := rfl
theorem command_four (b : Block) : command 4 b = { b with pos := 0 } := rfl

/-- `NOP` and the reserved command values change no field (R95, R151). -/
theorem command_of_noEffect (v : Word) (b : Block) (h : v = 0 ∨ 5 ≤ v.toNat) : command v b = b := by
  have h1 : v ≠ 1 := by bv_omega
  have h2 : v ≠ 2 := by bv_omega
  have h3 : v ≠ 3 := by bv_omega
  have h4 : v ≠ 4 := by bv_omega
  rw [command, if_neg h1, if_neg h2, if_neg h3, if_neg h4]

theorem enableEffect_frame (d : Drive) (b : Block) :
    enableEffect d b = { b with
      dir := (enableEffect d b).dir
      tot := (enableEffect d b).tot
      runt := (enableEffect d b).runt
      ticken := (enableEffect d b).ticken } := by
  unfold enableEffect
  split <;> rfl

/-- No command writes `POSMAX`, `POSTGT` or `SENSE_Q`. -/
theorem command_frame (v : Word) (b : Block) :
    command v b = { b with
      dir := (command v b).dir
      pos := (command v b).pos
      tot := (command v b).tot
      runt := (command v b).runt
      ticken := (command v b).ticken } := by
  rcases command_cases v with rfl | rfl | rfl | rfl | rfl | hReserved
  · rw [command_of_noEffect 0 b (.inl rfl)]
  · rw [command_one, enableEffect_pos]
    exact enableEffect_frame .opening b
  · rw [command_two, enableEffect_pos]
    exact enableEffect_frame .closing b
  · rw [command_three]
  · rw [command_four]
  · rw [command_of_noEffect v b (.inr hReserved)]

/-- Settles O50: the write is `memWrite`, whose clauses are the command at address 0, the replaced registers at 2
and 3, and no change elsewhere. -/
theorem writesPerformTheMap : Obligations.WritesPerformTheMap := by
  intro a v s
  refine ⟨s.complete (memWrite a v s.blk) .nothing, ?_, rfl, rfl, ?_, ?_, ?_, memWrite_of_notWritable a v s.blk⟩
  · rw [decodeBus_write, exec_decodeWrite]
  · rintro rfl
    exact ⟨command_frame v s.blk, (· ▸ command_one s.blk), (· ▸ command_two s.blk), (· ▸ command_three s.blk),
      (· ▸ command_four s.blk), command_of_noEffect v s.blk⟩
  · rintro rfl
    rfl
  · rintro rfl
    rfl

end Sys2Proof.Machine
end

section
/-!
The opcode table against the decoder (R76): a row is decided either by the whole word or by its upper four bits, so
the first matching row follows the same cases as the decoder. The operations of an event vector (R77).
-/

namespace Sys2Proof

/-! ## The first matching row (R76) -/

/-- The words of the five commands, whose rows the table matches on all twenty bits (R74, R78). -/
def commandWords : List BusWord := [0, 1, 2, 3, 4].map (mkBus true 0)

/-- A row is one command's word, or its mask looks at no bit below the address (R78). -/
theorem busRow_mask_cases : ∀ r ∈ busRows,
    (r.mask = BitVec.allOnes 20 ∧ r.pattern ∈ commandWords) ∨ r.mask = 0xF0000 &&& r.mask := by
  decide

/-- Among the words that are no command, the upper four bits choose the row. -/
theorem firstRow_congr {t u : BusWord} (hUpper : t &&& 0xF0000 = u &&& 0xF0000)
    (ht : t ∉ commandWords) (hu : u ∉ commandWords) : firstRow t = firstRow u := by
  refine List.find?_congr fun r hr => ?_
  rcases busRow_mask_cases r hr with ⟨hMask, hPattern⟩ | hMask
  · have htr : t ≠ r.pattern := fun h => ht (h ▸ hPattern)
    have hur : u ≠ r.pattern := fun h => hu (h ▸ hPattern)
    rw [hMask, BitVec.and_allOnes, BitVec.and_allOnes, beq_false_of_ne htr, beq_false_of_ne hur]
  · rw [hMask, ← BitVec.and_assoc, ← BitVec.and_assoc, hUpper]

theorem mem_commands_iff (d : Word) : d ∈ [0, 1, 2, 3, 4] ↔ ¬ ReservedCommand d := by
  simp only [List.mem_cons, List.not_mem_nil, or_false]
  bv_omega

theorem mkBus_mem_commandWords (wr : Bool) (a : Addr) (d : Word) :
    mkBus wr a d ∈ commandWords ↔ wr = true ∧ a = 0 ∧ ¬ ReservedCommand d := by
  rw [← mem_commands_iff]
  constructor
  · intro h
    obtain ⟨k, hk, hWord⟩ := List.mem_map.mp h
    obtain ⟨hwr, ha, hd⟩ := (mkBus_inj ..).mp hWord
    exact ⟨hwr.symm, ha.symm, hd ▸ hk⟩
  · rintro ⟨rfl, rfl, hd⟩
    exact List.mem_map_of_mem hd

theorem firstRow_mkBus_congr (wr : Bool) (a : Addr) (d e : Word) (hd : mkBus wr a d ∉ commandWords)
    (he : mkBus wr a e ∉ commandWords) : firstRow (mkBus wr a d) = firstRow (mkBus wr a e) :=
  firstRow_congr (by rw [mkBus_and_upper, mkBus_and_upper]) hd he

/-! ## The row by the decoder's cases -/

theorem firstRow_zeroData : ∀ (wr : Bool) (a : Addr),
    (firstRow (mkBus wr a 0)).map BusRow.mnemonic = some (mnemonicOf (decodeBus (mkBus wr a 0))) := by
  decide

theorem firstRow_read (a : Addr) (d : Word) :
    (firstRow (mkBus false a d)).map BusRow.mnemonic = some (mnemonicOf (decodeRead a)) := by
  have hNone (e : Word) : mkBus false a e ∉ commandWords := by simp [mkBus_mem_commandWords]
  rw [firstRow_mkBus_congr false a d 0 (hNone d) (hNone 0), firstRow_zeroData, decodeBus_read]

theorem mnemonicOf_decodeWrite_congr (a : Addr) (d e : Word) (h : a ≠ 0) :
    mnemonicOf (decodeWrite a d) = mnemonicOf (decodeWrite a e) := by
  rcases addr_cases a with rfl | rfl | rfl | rfl | rfl | rfl | hReserved
  · exact absurd rfl h
  · rfl
  · rfl
  · rfl
  · rfl
  · rfl
  · rw [decodeWrite_reserved a d hReserved, decodeWrite_reserved a e hReserved]
    rfl

theorem firstRow_write (a : Addr) (d : Word) (h : a ≠ 0) :
    (firstRow (mkBus true a d)).map BusRow.mnemonic = some (mnemonicOf (decodeWrite a d)) := by
  have hNone (e : Word) : mkBus true a e ∉ commandWords := fun hMem =>
    h ((mkBus_mem_commandWords true a e).mp hMem).2.1
  rw [firstRow_mkBus_congr true a d 0 (hNone d) (hNone 0), firstRow_zeroData, decodeBus_write,
    mnemonicOf_decodeWrite_congr a 0 d h]

/-- The rows of the five commands stand before the row of the reserved values, whose mask they also meet (R76). -/
theorem firstRow_command (d : Word) :
    (firstRow (mkBus true 0 d)).map BusRow.mnemonic = some (mnemonicOf (decodeCommand d)) := by
  rcases command_cases d with rfl | rfl | rfl | rfl | rfl | hReserved
  · rfl
  · rfl
  · rfl
  · rfl
  · rfl
  · have hNone (e : Word) (h : ReservedCommand e) : mkBus true 0 e ∉ commandWords := by
      simpa [mkBus_mem_commandWords] using h
    rw [firstRow_mkBus_congr true 0 d 5 (hNone d hReserved) (hNone 5 (by decide)),
      decodeCommand_reserved d hReserved]
    rfl

theorem firstRow_mkBus (wr : Bool) (a : Addr) (d : Word) :
    (firstRow (mkBus wr a d)).map BusRow.mnemonic = some (mnemonicOf (decodeBus (mkBus wr a d))) := by
  cases wr with
  | false => rw [decodeBus_read, firstRow_read]
  | true =>
    rw [decodeBus_write]
    by_cases ha : a = 0
    · subst ha
      exact firstRow_command d
    · exact firstRow_write a d ha

/-- Settles O4: a word is built from its fields, and the table's row follows the decoder's cases on them; the clauses
in words are the decoder's equations for a built read and a built write. -/
theorem busDecodeIsFirstMatchingRow : Obligations.BusDecodeIsFirstMatchingRow := by
  refine ⟨fun t => ?_, fun d => ?_, fun d => ?_, decodeBus_write 0 0, decodeBus_write 0 1, decodeBus_write 0 2,
    decodeBus_write 0 3, decodeBus_write 0 4, fun d h => ?_⟩
  · rw [← mkBus_fields t]
    exact firstRow_mkBus (busWr t) (busAddr t) (busData t)
  · exact ⟨decodeBus_read 0 d, decodeBus_read 1 d, decodeBus_read 2 d, decodeBus_read 3 d, decodeBus_read 4 d,
      decodeBus_read 5 d, decodeBus_read 6 d, decodeBus_read 7 d⟩
  · exact ⟨decodeBus_write 1 d, decodeBus_write 2 d, decodeBus_write 3 d, decodeBus_write 4 d, decodeBus_write 5 d,
      decodeBus_write 6 d, decodeBus_write 7 d⟩
  · exact (decodeBus_write 0 d).trans (decodeCommand_reserved d h)

/-! ## Event vectors (R77) -/

theorem decodeEv_reset (e : EvVec) (h : e.getLsbD 2 = true) : decodeEv e = [.reset] := if_pos h

/-- Settles O5: bit 2 is tested first and makes the vector `RESET` alone; the other four vectors are evaluated. -/
theorem eventVectorOperations : Obligations.EventVectorOperations :=
  ⟨decodeEv_reset, rfl, rfl, rfl, rfl⟩

end Sys2Proof
end

section
/-!
The status word (R75): each of its bits as a predicate over the record, and its values by direction.
-/

namespace Sys2Proof.Machine

/-! ## Bit by bit -/

theorem status_dirBits (b : Block) : b.status.extractLsb' 0 2 = b.dir.code := by
  apply BitVec.eq_of_getLsbD_eq
  intro i hi
  simp only [Block.status, BitVec.getLsbD_extractLsb', BitVec.getLsbD_append]
  simp [hi, show i < 3 by omega, show i < 4 by omega, show i < 5 by omega, show i < 6 by omega]

theorem status_drvOpenBit (b : Block) : b.status.getLsbD 2 = b.drvOpen := by
  simp only [Block.status, BitVec.getLsbD_append, BitVec.getLsbD_ofBool]
  simp

theorem status_drvCloseBit (b : Block) : b.status.getLsbD 3 = b.drvClose := by
  simp only [Block.status, BitVec.getLsbD_append, BitVec.getLsbD_ofBool]
  simp

theorem status_activeBit (b : Block) : b.status.getLsbD 4 = b.running := by
  simp only [Block.status, BitVec.getLsbD_append, BitVec.getLsbD_ofBool]
  simp

theorem status_tickenBit (b : Block) : b.status.getLsbD 5 = b.ticken := by
  simp only [Block.status, BitVec.getLsbD_append, BitVec.getLsbD_ofBool]
  simp

theorem status_upperBits (b : Block) : b.status.extractLsb' 6 10 = 0 :=
  BitVec.extractLsb'_append_eq_left

/-! ## By direction -/

theorem status_of_disabled (b : Block) (h : b.dir = .disabled) :
    b.status = if b.ticken then 0x0020 else 0x0000 := by
  cases hk : b.ticken <;> simp [Block.status, Block.running, Block.drvOpen, Block.drvClose, Dir.code, h, hk]

theorem status_of_opening (b : Block) (h : b.dir = .opening) (hk : b.ticken = true) : b.status = 0x0035 := by
  simp [Block.status, Block.running, Block.drvOpen, Block.drvClose, Dir.code, h, hk]

theorem status_of_closing (b : Block) (h : b.dir = .closing) (hk : b.ticken = true) : b.status = 0x003A := by
  simp [Block.status, Block.running, Block.drvOpen, Block.drvClose, Dir.code, h, hk]

/-- With the tick request up while driving (R36 (b)) the status word has four values (R75). -/
theorem status_reachable (b : Block) (h : b.dir ≠ .disabled → b.ticken = true) :
    b.status = 0x0000 ∨ b.status = 0x0020 ∨ b.status = 0x0035 ∨ b.status = 0x003A := by
  cases hd : b.dir with
  | disabled =>
    rw [status_of_disabled b hd]
    split <;> simp
  | opening => exact .inr (.inr (.inl (status_of_opening b hd (h (by simp [hd])))))
  | closing => exact .inr (.inr (.inr (status_of_closing b hd (h (by simp [hd])))))

/-! ## The read (R140) -/

/-- A word below `0x10000` is a read at address 0, whatever its data. -/
theorem decodeWord_rdCsr (d : Word) : decodeWord (.bus (BitVec.ofNat 20 d.toNat)) = .ok .rdCsr := by
  have hWord : BitVec.ofNat 20 d.toNat = mkBus false 0 d := by
    rw [← mkBus_ofNat false 0 d 0 rfl, Nat.zero_add]
  rw [hWord]
  exact congrArg Except.ok (decodeBus_read 0 d)

/-- Settles O49: `RD.CSR` returns the status word, whose bits and values the laws above give. -/
theorem statusWordLayout : Obligations.StatusWordLayout := by
  refine ⟨decodeWord_rdCsr, fun s => ⟨s.blk.status, rfl, ?_, status_drvOpenBit s.blk, status_drvCloseBit s.blk,
    status_activeBit s.blk, status_tickenBit s.blk, status_upperBits s.blk, status_reachable s.blk⟩⟩
  rw [status_dirBits]
  cases s.blk.dir <;> rfl

end Sys2Proof.Machine
end

section
/-!
The Motor Driver (40_motor_driver.md): the enable effect in both directions (R90 to R92), a reversal (R94), the
operations that start and end a drive (R96), and the writes that change nothing (R95, R149).
-/

namespace Sys2Proof.Machine

/-! ## The outputs while driving (R29) -/

theorem outputs_of_opening (b : Block) (h : b.dir = .opening) :
    b.drvOpen = true ∧ b.drvClose = false ∧ b.active = true := by
  simp [Block.drvOpen, Block.drvClose, Block.active, Block.running, h]

theorem outputs_of_closing (b : Block) (h : b.dir = .closing) :
    b.drvOpen = false ∧ b.drvClose = true ∧ b.active = true := by
  simp [Block.drvOpen, Block.drvClose, Block.active, Block.running, h]

theorem powered_iff (b : Block) : (b.drvOpen = true ∨ b.drvClose = true) ↔ b.dir ≠ .disabled := by
  rw [drvOpen_iff, drvClose_iff]
  cases b.dir <;> decide

/-! ## `ENABLE` in either direction (R90) -/

/-- In the direction already set, an enable leaves the record as it is. -/
theorem exec_enableInstr_same (d : Drive) (s : State) (h : s.blk.dir = d.dir) :
    exec (enableInstr d) s = .next { s with ret := .nothing } := by
  rw [exec_enableInstr, enableEffect_same d s.blk h, State.complete]

/-- In any other direction, an enable starts a drive: the counters from zero, and the ticks requested. -/
theorem exec_enableInstr_effective (d : Drive) (s : State) (h : s.blk.dir ≠ d.dir) :
    exec (enableInstr d) s = .next { s with
      blk := { s.blk with dir := d.dir, tot := 0, runt := 0, ticken := true }
      ret := .nothing } := by
  rw [exec_enableInstr, enableEffect_effective d s.blk h, State.complete]

theorem enableEffect_ticken_of_effective (d : Drive) (b : Block) (h : b.dir ≠ d.dir) :
    (enableEffect d b).ticken = true := by
  rw [enableEffect_effective d b h]

/-- Where the ticks are requested already, an enable against the drive leaves `TICKEN` as it was (R94). -/
theorem exec_enableInstr_reversal (d : Drive) (s : State) (h : s.blk.dir ≠ d.dir) (hTicken : s.blk.ticken = true) :
    exec (enableInstr d) s = .next { s with
      blk := { s.blk with dir := d.dir, tot := 0, runt := 0 }
      ret := .nothing } := by
  rw [exec_enableInstr_effective d s h, ← hTicken]

/-- Settles O16: the two cases of the enable effect, in each direction. -/
theorem enableEffectOnTheRecord : Obligations.EnableEffectOnTheRecord := by
  rintro s i d (⟨rfl, rfl⟩ | ⟨rfl, rfl⟩)
  · exact ⟨exec_enableInstr_same .opening s, exec_enableInstr_effective .opening s⟩
  · exact ⟨exec_enableInstr_same .closing s, exec_enableInstr_effective .closing s⟩

/-! ## `ENABLE.O` and `ENABLE.C` with a stale target (R91, R92) -/

/-- A tick ends a calibrated drive whose target is reached or passed, by the stall if not by the arrival (R115). -/
theorem exec_tick_of_arrived (s : State) (hCalibrated : s.blk.posmax ≠ 0) (hArrived : s.blk.arrived = true) :
    ∃ u, exec .tick s = .next u ∧ u.blk.dir = .disabled := by
  refine ⟨_, exec_tick s, ?_⟩
  rw [State.complete_blk, tickEffect_dir, if_pos (.inr (.inr ⟨hCalibrated, hArrived⟩))]

/-- An enable moves neither the position nor the target, so a target already passed in the new direction is the
drive's arrival at its first tick. -/
theorem arrived_enableEffect_opening (b : Block) (h : b.postgt.toInt ≤ b.pos.toInt) :
    (enableEffect .opening b).arrived = true := by
  rw [arrived_iff, enableEffect_pos, enableEffect_postgt]
  exact .inl ⟨enableEffect_dir .opening b, h⟩

theorem arrived_enableEffect_closing (b : Block) (h : b.pos.toInt ≤ b.postgt.toInt) :
    (enableEffect .closing b).arrived = true := by
  rw [arrived_iff, enableEffect_pos, enableEffect_postgt]
  exact .inr ⟨enableEffect_dir .closing b, h⟩

/-- The first tick after an enable ends the drive, if the enabled record is calibrated and arrived. -/
theorem exec_tick_of_enable_arrived (d : Drive) (s : State) (hCalibrated : s.blk.posmax ≠ 0)
    (hArrived : (enableEffect d s.blk).arrived = true) :
    ∃ u, exec .tick (s.complete (enableEffect d s.blk) .nothing) = .next u ∧ u.blk.dir = .disabled := by
  refine exec_tick_of_arrived _ ?_ hArrived
  rwa [State.complete_blk, enableEffect_posmax]

/-- Settles O17: the outputs and the status word follow from `DIR` and `TICKEN` after the enable effect, and a stale
target is an arrival at the next tick. -/
theorem enableOpeningCommand : Obligations.EnableOpeningCommand := by
  refine ⟨rfl, fun s => ?_⟩
  have hDir := enableEffect_dir .opening s.blk
  obtain ⟨hOpen, hClose, hActive⟩ := outputs_of_opening _ hDir
  exact ⟨s.complete (enableEffect .opening s.blk) .nothing, rfl, rfl, hOpen, hClose, hActive,
    enableEffect_same .opening s.blk, fun h =>
      ⟨enableEffect_effective .opening s.blk h,
        status_of_opening _ hDir (enableEffect_ticken_of_effective .opening s.blk h),
        fun hCalibrated hStale =>
          exec_tick_of_enable_arrived .opening s hCalibrated (arrived_enableEffect_opening s.blk hStale)⟩⟩

/-- Settles O18: as for `ENABLE.O`, in the closing direction. -/
theorem enableClosingCommand : Obligations.EnableClosingCommand := by
  refine ⟨rfl, fun s => ?_⟩
  have hDir := enableEffect_dir .closing s.blk
  obtain ⟨hOpen, hClose, hActive⟩ := outputs_of_closing _ hDir
  exact ⟨s.complete (enableEffect .closing s.blk) .nothing, rfl, rfl, hOpen, hClose, hActive,
    enableEffect_same .closing s.blk, fun h =>
      ⟨enableEffect_effective .closing s.blk h,
        status_of_closing _ hDir (enableEffect_ticken_of_effective .closing s.blk h),
        fun hCalibrated hStale =>
          exec_tick_of_enable_arrived .closing s hCalibrated (arrived_enableEffect_closing s.blk hStale)⟩⟩

/-! ## Reversal (R94) -/

/-- Settles O19: the enable against the drive is effective, and the two drive outputs change places. -/
theorem reversalInOneStep : Obligations.ReversalInOneStep := by
  rintro s i d d' (⟨rfl, rfl, rfl⟩ | ⟨rfl, rfl, rfl⟩) hDir hTicken
  · obtain ⟨hOpen, hClose, -⟩ := outputs_of_opening s.blk hDir
    exact ⟨_, exec_enableInstr_reversal .closing s (by simp [hDir, Drive.dir]) hTicken, rfl, hClose.symm, hOpen.symm,
      drvOpen_ne_drvClose_of_driving s.blk (by simp [hDir])⟩
  · obtain ⟨hOpen, hClose, -⟩ := outputs_of_closing s.blk hDir
    exact ⟨_, exec_enableInstr_reversal .opening s (by simp [hDir, Drive.dir]) hTicken, rfl, hClose.symm, hOpen.symm,
      drvOpen_ne_drvClose_of_driving s.blk (by simp [hDir])⟩

/-! ## What writes `DIR` (R96) -/

/-- Everything an operation can do to `DIR`: only the enables, `DISABLE`, `RESET` and the tick write it. -/
theorem exec_dir_cases (i : Instr) (s t : State) (h : exec i s = .next t) :
    (i = .enableO ∧ t.blk.dir = .opening) ∨ (i = .enableC ∧ t.blk.dir = .closing)
      ∨ ((i = .disable ∨ i = .reset) ∧ t.blk.dir = .disabled)
      ∨ (i = .tick ∧ t.blk.dir = (tickEffect s.par.stallThreshold s.blk).dir)
      ∨ t.blk.dir = s.blk.dir := by
  cases i with
  | enableO =>
    cases h
    exact .inl ⟨rfl, enableEffect_dir .opening s.blk⟩
  | enableC =>
    cases h
    exact .inr (.inl ⟨rfl, enableEffect_dir .closing s.blk⟩)
  | disable =>
    cases h
    exact .inr (.inr (.inl ⟨.inl rfl, rfl⟩))
  | reset =>
    cases h
    exact .inr (.inr (.inl ⟨.inr rfl, rfl⟩))
  | tick =>
    cases h
    exact .inr (.inr (.inr (.inl ⟨rfl, rfl⟩)))
  | edge =>
    cases h
    exact .inr (.inr (.inr (.inr (edgeEffect_dir s.blk))))
  | _ =>
    cases h
    exact .inr (.inr (.inr (.inr rfl)))

theorem tickEffect_dir_of_disabled (th : Word) (b : Block) (h : b.dir = .disabled) :
    (tickEffect th b).dir = .disabled := by
  rw [tickEffect_dir, if_pos (.inl h)]

/-- A tick that ends a drive is one whose step 1 (stall) or step 3 (arrival) applies. -/
theorem stall_or_arrival_of_tick_stops (th : Word) (b : Block) (hDriving : b.dir ≠ .disabled)
    (hStopped : (tickEffect th b).dir = .disabled) :
    th.toNat < (b.tot.toNat + 1) % 2 ^ 16 ∨ (b.posmax ≠ 0 ∧ b.arrived = true) := by
  rw [tickEffect_dir, add_one_toNat] at hStopped
  by_contra hNeither
  rw [if_neg (not_or.mpr ⟨hDriving, hNeither⟩)] at hStopped
  exact hDriving hStopped

theorem enable_of_drive_starts (i : Instr) (s t : State) (h : exec i s = .next t) (hOff : s.blk.dir = .disabled)
    (hOn : t.blk.dir ≠ .disabled) : i = .enableO ∨ i = .enableC := by
  rcases exec_dir_cases i s t h with ⟨hi, -⟩ | ⟨hi, -⟩ | ⟨-, hDir⟩ | ⟨-, hDir⟩ | hDir
  · exact .inl hi
  · exact .inr hi
  · exact absurd hDir hOn
  · exact absurd (hDir.trans (tickEffect_dir_of_disabled _ _ hOff)) hOn
  · exact absurd (hDir.trans hOff) hOn

theorem stopper_of_drive_ends (i : Instr) (s t : State) (h : exec i s = .next t) (hOn : s.blk.dir ≠ .disabled)
    (hOff : t.blk.dir = .disabled) :
    i = .disable ∨ i = .reset
      ∨ (i = .tick ∧ (s.par.stallThreshold.toNat < (s.blk.tot.toNat + 1) % 2 ^ 16
          ∨ (s.blk.posmax ≠ 0 ∧ s.blk.arrived = true))) := by
  rcases exec_dir_cases i s t h with ⟨-, hDir⟩ | ⟨-, hDir⟩ | ⟨rfl | rfl, -⟩ | ⟨hi, hDir⟩ | hDir
  · exact absurd (hDir.symm.trans hOff) (by decide)
  · exact absurd (hDir.symm.trans hOff) (by decide)
  · exact .inl rfl
  · exact .inr (.inl rfl)
  · exact .inr (.inr ⟨hi, stall_or_arrival_of_tick_stops _ _ hOn (hDir.symm.trans hOff)⟩)
  · exact absurd (hDir.symm.trans hOff) hOn

/-- Settles O23: of the operations that write `DIR` only the enables start a drive, and the others end it. -/
theorem driveStartsAndEndsOnlySo : Obligations.DriveStartsAndEndsOnlySo :=
  ⟨fun i s t h => ⟨enable_of_drive_starts i s t h, stopper_of_drive_ends i s t h⟩, powered_iff⟩

/-! ## The writes that change nothing (R95, R149) -/

/-- A write as a number: its word without data, and the data counted on from it. -/
theorem decodeWord_write (a : Addr) (v : Word) (k : Nat) (hk : (mkBus true a 0).toNat = k) :
    decodeWord (.bus (BitVec.ofNat 20 (k + v.toNat))) = .ok (decodeWrite a v) := by
  rw [mkBus_ofNat true a v k hk]
  exact congrArg Except.ok (decodeBus_write a v)

/-- Settles O25: the words decode by their address, and each of the four operations completes with the record as it
was. -/
theorem ignoredWritesChangeNothing : Obligations.IgnoredWritesChangeNothing :=
  ⟨rfl, fun _ => rfl,
    fun v => ⟨decodeWord_write 1 v 0x90000 rfl, decodeWord_write 4 v 0xC0000 rfl, decodeWord_write 5 v 0xD0000 rfl⟩,
    fun _ _ => ⟨rfl, rfl, rfl⟩⟩

end Sys2Proof.Machine
end

section
/-!
The Pulse Counter (41_pulse_counter.md): the edge by direction (R105), the exact count of edges (R107), `ZPOS` (R106)
and the sampler of the SENSE pin (R108).
-/

namespace Sys2Proof.Machine

/-! ## The edge over the signed readings (R105) -/

/-- How far one edge moves `POS` in a drive of this direction: one up, one down, or not at all (R105). -/
def Dir.edgeShift : Dir → Int
  | .disabled => 0
  | .opening => 1
  | .closing => -1

theorem edgeEffect_pos_of_opening (b : Block) (h : b.dir = .opening) : (edgeEffect b).pos = b.pos + 1 := by
  rw [edgeEffect_opening b h]

theorem edgeEffect_pos_of_closing (b : Block) (h : b.dir = .closing) : (edgeEffect b).pos = b.pos - 1 := by
  rw [edgeEffect_closing b h]

theorem edgeEffect_pos_of_disabled (b : Block) (h : b.dir = .disabled) : (edgeEffect b).pos = b.pos := by
  rw [edgeEffect_disabled b h]

/-- One edge adds the shift of the direction to the signed position, modulo 2^16 (R105). -/
theorem edgeEffect_pos_toInt (b : Block) :
    (edgeEffect b).pos.toInt = (b.pos.toInt + b.dir.edgeShift).bmod (2 ^ 16) := by
  cases h : b.dir with
  | disabled => rw [edgeEffect_pos_of_disabled b h, Dir.edgeShift, Int.add_zero, BitVec.toInt_bmod_cancel]
  | opening => rw [edgeEffect_pos_of_opening b h, BitVec.toInt_add]; rfl
  | closing => rw [edgeEffect_pos_of_closing b h, BitVec.toInt_sub]; rfl

theorem exec_edge (s : State) : exec .edge s = .next (s.complete (edgeEffect s.blk) .nothing) := rfl

/-- Settles O27: the edge clears `TOT` and writes `POS` alone beside it; the signed readings follow from the shift of
the direction, and the two wraps from the arithmetic on patterns. -/
theorem edgeMovesPositionByDirection : Obligations.EdgeMovesPositionByDirection := by
  refine ⟨rfl, fun s => ⟨_, exec_edge s, ?frame, ?opening, ?closing, edgeEffect_pos_of_disabled s.blk, ?wrapUp,
    ?wrapDown⟩⟩
  case frame =>
    have hFrame := edgeEffect_frame s.blk
    rw [edgeEffect_tot] at hFrame
    exact congrArg (s.complete · .nothing) hFrame
  case opening =>
    intro h
    rw [State.complete_blk, edgeEffect_pos_toInt, h, Dir.edgeShift]
  case closing =>
    intro h
    rw [State.complete_blk, edgeEffect_pos_toInt, h, Dir.edgeShift, ← Int.sub_eq_add_neg]
  case wrapUp =>
    intro h hPos
    rw [State.complete_blk, edgeEffect_pos_of_opening s.blk h, hPos]
    decide
  case wrapDown =>
    intro h hPos
    rw [State.complete_blk, edgeEffect_pos_of_closing s.blk h, hPos]
    decide

/-! ## Runs of edges (R107) -/

/-- `n` edges keep `DIR`, so each adds the same shift: the position moves by `n` shifts, modulo 2^16. -/
theorem runOps_edges (n : Nat) (s : State) :
    ∃ t, runOps (List.replicate n .edge) s = .next t ∧ t.blk.dir = s.blk.dir
      ∧ t.blk.pos.toInt = (s.blk.pos.toInt + n * s.blk.dir.edgeShift).bmod (2 ^ 16) := by
  induction n generalizing s with
  | zero =>
    refine ⟨s, rfl, rfl, ?_⟩
    rw [Int.natCast_zero, Int.zero_mul, Int.add_zero, BitVec.toInt_bmod_cancel]
  | succ n ih =>
    obtain ⟨t, hRun, hDir, hPos⟩ := ih (s.complete (edgeEffect s.blk) .nothing)
    rw [State.complete_blk, edgeEffect_dir] at hDir hPos
    refine ⟨t, (runOps_cons .edge _ s _ (exec_edge s)).trans hRun, hDir, ?_⟩
    rw [hPos, edgeEffect_pos_toInt, Int.bmod_add_bmod]
    congr 1
    push_cast
    ring

/-- Settles O28: a run of edges moves `POS` by `n` times the shift of the direction, which is one up or one down. -/
theorem edgesCountedExactlyOnce : Obligations.EdgesCountedExactlyOnce := by
  intro n s _
  obtain ⟨t, hRun, hDir, hPos⟩ := runOps_edges n s
  refine ⟨t, hRun, hDir, fun h => ?_, fun h => ?_⟩
  · rw [hPos, h, Dir.edgeShift, Int.mul_one]
  · rw [hPos, h, Dir.edgeShift, Int.mul_neg_one, ← Int.sub_eq_add_neg]

/-! ## `ZPOS` (R106) -/

theorem exec_zpos (s : State) : exec .zpos s = .next (s.complete (zeroPos s.blk) .nothing) := rfl

theorem zeroPos_of_pos_zero (b : Block) (h : b.pos = 0) : zeroPos b = b := by
  rw [zeroPos, ← h]

/-- An edge right after `ZPOS` leaves the position at the shift of the direction. -/
theorem edgeEffect_zeroPos_pos_toInt (b : Block) :
    (edgeEffect (zeroPos b)).pos.toInt = b.dir.edgeShift.bmod (2 ^ 16) := by
  have hZero : (0 : Word).toInt = 0 := rfl
  rw [edgeEffect_pos_toInt, zeroPos_pos, zeroPos_dir, hZero, Int.zero_add]

theorem runOps_zpos_edge (s : State) :
    runOps [.zpos, .edge] s = .next (s.complete (edgeEffect (zeroPos s.blk)) .nothing) :=
  (runOps_cons .zpos [.edge] s _ (exec_zpos s)).trans (runOps_single .edge _)

/-- Settles O30: `ZPOS` writes `POS` alone, which is nothing where it is 0 already, and the edge after it finds 0. -/
theorem zeroPositionCommand : Obligations.ZeroPositionCommand := by
  refine ⟨rfl, fun s => ⟨exec_zpos s, fun hZero => ?_, _, runOps_zpos_edge s, fun h => ?_, fun h => ?_⟩⟩
  · rw [exec_zpos, zeroPos_of_pos_zero s.blk hZero, State.complete]
  · rw [State.complete_blk, edgeEffect_zeroPos_pos_toInt, h]
    rfl
  · rw [State.complete_blk, edgeEffect_zeroPos_pos_toInt, h]
    rfl

/-! ## The sampler (R108) -/

theorem samplePin_unchanged (s : State) (h : s.sense = s.blk.senseQ) : samplePin s = .next s := if_pos h

/-- The edge neither reads nor writes `SENSE_Q`, so storing the new level commutes with it. -/
theorem edgeEffect_with_senseQ (b : Block) (level : Bool) :
    edgeEffect { b with senseQ := level } = { edgeEffect b with senseQ := level } := by
  rcases b with ⟨dir, _, _, _, _, _, _, _⟩
  cases dir <;> rfl

theorem samplePin_changed (s : State) (h : s.sense ≠ s.blk.senseQ) :
    samplePin s = .next (s.complete { edgeEffect s.blk with senseQ := s.sense } .nothing) := by
  rw [samplePin, if_neg h, exec_edge, edgeEffect_with_senseQ]
  rfl

/-- Settles O31: the sample is the oldest arrival, and the sampler's two cases are its laws above. -/
theorem samplerIssuesEdgeOnChange : Obligations.SamplerIssuesEdgeOnChange := by
  intro s rest hArrivals
  rw [step_cons s .sample rest hArrivals]
  exact ⟨samplePin_unchanged (s.withArrivals rest), fun hChanged =>
    ⟨_, _, samplePin_changed (s.withArrivals rest) hChanged, exec_edge s, rfl⟩⟩

end Sys2Proof.Machine
end

section
/-!
The Timeout Supervisor (42_timeout_supervisor.md): what the tick leaves in `RUNT` (R117), in `DIR` (R118) and in
`TICKEN` (R119), and the whole tick in its four cases (R115).
-/

namespace Sys2Proof.Machine

/-! ## `RUNT` (R117) -/

theorem tickEffect_runt (th : Word) (b : Block) :
    (tickEffect th b).runt =
      if b.dir ≠ .disabled ∧ (b.tot.toNat + 1) % 2 ^ 16 ≤ th.toNat then b.runt + 1 else b.runt := by
  rw [tickEffect_eq, add_one_toNat, ← ite_not]
  simp only [not_or, Nat.not_lt]

/-- Settles O33: step 2 counts after step 1, and the incremented count is read modulo 2^16. -/
theorem runTimeCountsDrivingTicks : Obligations.RunTimeCountsDrivingTicks := by
  intro s
  refine ⟨_, exec_tick s, ?_⟩
  rw [State.complete_blk, tickEffect_runt, apply_ite BitVec.toNat, add_one_toNat]

/-! ## `DIR` (R118) -/

theorem arrived_iff_of_opening (b : Block) (h : b.dir = .opening) :
    b.arrived = true ↔ b.postgt.toInt ≤ b.pos.toInt := by
  simp [arrived_iff, h]

theorem arrived_iff_of_closing (b : Block) (h : b.dir = .closing) :
    b.arrived = true ↔ b.pos.toInt ≤ b.postgt.toInt := by
  simp [arrived_iff, h]

theorem tickEffect_dir_of_stalled (th : Word) (b : Block) (h : th.toNat < (b.tot.toNat + 1) % 2 ^ 16) :
    (tickEffect th b).dir = .disabled := by
  rw [tickEffect_dir, add_one_toNat, if_pos (.inr (.inl h))]

theorem tickEffect_dir_of_arrived (th : Word) (b : Block) (hCalibrated : b.posmax ≠ 0) (hArrived : b.arrived = true) :
    (tickEffect th b).dir = .disabled := by
  rw [tickEffect_dir, if_pos (.inr (.inr ⟨hCalibrated, hArrived⟩))]

/-- With neither a stall nor an arrival the tick keeps `DIR`, off or driving. -/
theorem tickEffect_dir_of_not_stopped (th : Word) (b : Block) (hNoStall : (b.tot.toNat + 1) % 2 ^ 16 ≤ th.toNat)
    (hNoArrival : ¬ (b.posmax ≠ 0 ∧ b.arrived = true)) : (tickEffect th b).dir = b.dir := by
  by_cases hOff : b.dir = .disabled
  · rw [hOff, tickEffect_dir_of_disabled th b hOff]
  · rw [tickEffect_dir, add_one_toNat, if_neg]
    exact not_or.mpr ⟨hOff, not_or.mpr ⟨hNoStall.not_gt, hNoArrival⟩⟩

/-- Without a stall, a calibrated drive is stopped exactly on arrival. -/
theorem tickEffect_stops_iff_arrived (th : Word) (b : Block) (hNoStall : (b.tot.toNat + 1) % 2 ^ 16 ≤ th.toNat)
    (hCalibrated : b.posmax ≠ 0) (hDriving : b.dir ≠ .disabled) :
    (tickEffect th b).dir = .disabled ↔ b.arrived = true := by
  constructor
  · intro hStopped
    rcases stall_or_arrival_of_tick_stops th b hDriving hStopped with hStall | ⟨-, hArrived⟩
    · exact absurd hStall hNoStall.not_gt
    · exact hArrived
  · exact tickEffect_dir_of_arrived th b hCalibrated

/-- Settles O34: the drive stops on arrival, which in each direction is one signed comparison; an uncalibrated drive
has no arrival. -/
theorem arrivalStopsCalibratedDrive : Obligations.ArrivalStopsCalibratedDrive := by
  intro s hNoStall
  refine ⟨_, exec_tick s, ?opening, ?closing, ?uncalibrated⟩
  case opening =>
    intro hCalibrated hDir
    exact (tickEffect_stops_iff_arrived _ s.blk hNoStall hCalibrated (by simp [hDir])).trans
      (arrived_iff_of_opening s.blk hDir)
  case closing =>
    intro hCalibrated hDir
    exact (tickEffect_stops_iff_arrived _ s.blk hNoStall hCalibrated (by simp [hDir])).trans
      (arrived_iff_of_closing s.blk hDir)
  case uncalibrated =>
    intro hUncalibrated
    exact tickEffect_dir_of_not_stopped _ s.blk hNoStall fun h => h.1 hUncalibrated

/-! ## The whole record in the four cases (R115) -/

/-- A tick that ends with the motor off: `TICKEN` is released, and what happened to `RUNT` is left to the case. -/
theorem tickEffect_of_off (th : Word) (b : Block) (h : (tickEffect th b).dir = .disabled) :
    tickEffect th b =
      { b with tot := b.tot + 1, runt := (tickEffect th b).runt, dir := .disabled, ticken := false } := by
  have hRunning : (tickEffect th b).running = false := (running_false_iff _).mpr h
  conv_lhs => rw [tickEffect_eq, h, hRunning]
  rw [tickEffect_eq]

/-- Off on entry: the tick counts in `TOT` and releases `TICKEN` (R115 (c)). -/
theorem tickEffect_of_disabled (th : Word) (b : Block) (h : b.dir = .disabled) :
    tickEffect th b = { b with tot := b.tot + 1, ticken := false } := by
  rw [tickEffect_of_off th b (tickEffect_dir_of_disabled th b h), tickEffect_runt, if_neg fun hOn => hOn.1 h, ← h]

/-- Stalled in step 1: `RUNT` is not counted (R115 (a)). -/
theorem tickEffect_of_stalled (th : Word) (b : Block) (hStall : th.toNat < (b.tot.toNat + 1) % 2 ^ 16) :
    tickEffect th b = { b with tot := b.tot + 1, dir := .disabled, ticken := false } := by
  rw [tickEffect_of_off th b (tickEffect_dir_of_stalled th b hStall), tickEffect_runt,
    if_neg fun hOn => hStall.not_ge hOn.2]

/-- Arrived in step 3: the last tick of the drive is counted in `RUNT` (R115 (b)). -/
theorem tickEffect_of_arrived (th : Word) (b : Block) (hDriving : b.dir ≠ .disabled)
    (hNoStall : (b.tot.toNat + 1) % 2 ^ 16 ≤ th.toNat) (hCalibrated : b.posmax ≠ 0) (hArrived : b.arrived = true) :
    tickEffect th b = { b with tot := b.tot + 1, runt := b.runt + 1, dir := .disabled, ticken := false } := by
  rw [tickEffect_of_off th b (tickEffect_dir_of_arrived th b hCalibrated hArrived), tickEffect_runt,
    if_pos ⟨hDriving, hNoStall⟩]

/-- Still driving: both counters count, and the ticks stay requested (R115, R119). -/
theorem tickEffect_of_still_driving (th : Word) (b : Block) (hDriving : b.dir ≠ .disabled)
    (hNoStall : (b.tot.toNat + 1) % 2 ^ 16 ≤ th.toNat) (hNoArrival : ¬ (b.posmax ≠ 0 ∧ b.arrived = true)) :
    tickEffect th b = { b with tot := b.tot + 1, runt := b.runt + 1, ticken := true } := by
  have hDir := tickEffect_dir_of_not_stopped th b hNoStall hNoArrival
  have hRunning : (tickEffect th b).running = true := by rwa [running_iff, hDir]
  rw [tickEffect_eq, hDir, hRunning, add_one_toNat, if_neg (not_or.mpr ⟨hDriving, hNoStall.not_gt⟩)]

/-- Uncalibrated, or short of the target in the direction of the drive, step 3 does not apply. -/
theorem no_arrival_of_short (b : Block)
    (h : b.posmax = 0 ∨ (b.dir = .opening ∧ b.pos.toInt < b.postgt.toInt)
      ∨ (b.dir = .closing ∧ b.postgt.toInt < b.pos.toInt)) :
    ¬ (b.posmax ≠ 0 ∧ b.arrived = true) := by
  rintro ⟨hCalibrated, hArrived⟩
  rcases h with hZero | ⟨hDir, hShort⟩ | ⟨hDir, hShort⟩
  · exact hCalibrated hZero
  · exact hShort.not_ge ((arrived_iff_of_opening b hDir).mp hArrived)
  · exact hShort.not_ge ((arrived_iff_of_closing b hDir).mp hArrived)

/-- Step 4 writes whether the motor drives, and leaves whether it does (R119). -/
theorem keepStep_ticken_eq_running (b : Block) : (keepStep b).ticken = (keepStep b).running := rfl

theorem tickEffect_ticken (th : Word) (b : Block) : (tickEffect th b).ticken = (tickEffect th b).running := by
  rw [tickEffect, keepStep_ticken_eq_running]

/-- The tick as a whole, once its effect on the record is known: the result is that record's `TICKEN`. -/
theorem exec_tick_of_effect (s : State) (b : Block) (h : tickEffect s.par.stallThreshold s.blk = b) :
    exec .tick s = .next { s with blk := b, ret := .k b.ticken } := by
  rw [exec_tick, ← tickEffect_ticken, h, State.complete]

/-- Settles O36: each case is the law of the tick's effect for that case, with the count written as a number. -/
theorem tickInItsFourCases : Obligations.TickInItsFourCases := by
  refine ⟨rfl, ?_⟩
  rintro s n rfl
  rw [← add_one_toNat, BitVec.ofNat_toNat, BitVec.setWidth_eq, add_one_toNat]
  refine ⟨?off, ?stalled, ?arrived, ?driving⟩
  case off =>
    intro hOff
    exact exec_tick_of_effect s _ (tickEffect_of_disabled _ s.blk hOff)
  case stalled =>
    intro _ hStall
    exact exec_tick_of_effect s _ (tickEffect_of_stalled _ s.blk hStall)
  case arrived =>
    intro hDriving hNoStall hCalibrated hReached
    exact exec_tick_of_effect s _
      (tickEffect_of_arrived _ s.blk hDriving hNoStall hCalibrated ((arrived_iff s.blk).mpr hReached))
  case driving =>
    intro hDriving hNoStall hShort
    exact exec_tick_of_effect s _
      (tickEffect_of_still_driving _ s.blk hDriving hNoStall (no_arrival_of_short s.blk hShort))

/-! ## `TICKEN` (R119) -/

theorem edgeEffect_ticken (b : Block) : (edgeEffect b).ticken = b.ticken := by
  rw [edgeEffect_frame]

/-- Everything an operation but the enables can do to `TICKEN`: keep it, or set it to whether the motor drives
(`TICK` and `RESET`). -/
theorem exec_ticken_cases (i : Instr) (s t : State) (h : exec i s = .next t) (hO : i ≠ .enableO)
    (hC : i ≠ .enableC) : t.blk.ticken = s.blk.ticken ∨ t.blk.ticken = t.blk.running := by
  cases i with
  | enableO => exact absurd rfl hO
  | enableC => exact absurd rfl hC
  | tick =>
    cases h
    exact .inr (tickEffect_ticken _ s.blk)
  | reset =>
    cases h
    exact .inr rfl
  | edge =>
    cases h
    exact .inl (edgeEffect_ticken s.blk)
  | _ =>
    cases h
    exact .inl rfl

/-- With the motor off and the request withdrawn, only an enable changes either. -/
theorem stays_off_without_enable (i : Instr) (s t : State) (hOff : s.blk.dir = .disabled)
    (hTicken : s.blk.ticken = false) (hO : i ≠ .enableO) (hC : i ≠ .enableC) (h : exec i s = .next t) :
    t.blk.dir = .disabled ∧ t.blk.ticken = false := by
  have hStillOff : t.blk.dir = .disabled :=
    by_contra fun hOn => (enable_of_drive_starts i s t h hOff hOn).elim hO hC
  refine ⟨hStillOff, ?_⟩
  rcases exec_ticken_cases i s t h hO hC with hKept | hRunning
  · exact hKept.trans hTicken
  · exact hRunning.trans ((running_false_iff t.blk).mpr hStillOff)

/-- From the motor off an enable in either direction is effective, so it raises the request. -/
theorem enableEffect_ticken_of_disabled (d : Drive) (b : Block) (h : b.dir = .disabled) :
    (enableEffect d b).ticken = true := by
  refine enableEffect_ticken_of_effective d b ?_
  cases d <;> simp [h, Drive.dir]

/-- Settles O35: `TICKEN` and the result are step 4's; `DISABLE` is followed by the tick with the motor off; the
request is raised by the two enables and by nothing else. -/
theorem tickReturnsAndKeepsRequest : Obligations.TickReturnsAndKeepsRequest := by
  refine ⟨?result, ?withdrawn, ?raised, stays_off_without_enable⟩
  case result =>
    exact fun s => ⟨_, exec_tick s, tickEffect_ticken _ s.blk, rfl, rfl⟩
  case withdrawn =>
    intro s
    have hTick := exec_tick_of_effect (s.complete (disableEffect s.blk) .nothing) _
      (tickEffect_of_disabled _ (disableEffect s.blk) (disableEffect_dir s.blk))
    exact ⟨_, _, rfl, hTick, disableEffect_ticken s.blk, rfl, rfl⟩
  case raised =>
    intro s hOff
    exact ⟨_, _, rfl, rfl, enableEffect_ticken_of_disabled .opening s.blk hOff,
      enableEffect_ticken_of_disabled .closing s.blk hOff⟩

end Sys2Proof.Machine
end

section
/-!
The Stall Detector (43_stall_detector.md): step 1 of the tick counts always, and stops the motor strictly above the
threshold (R130).
-/

namespace Sys2Proof.Machine

/-- The tick counts in any state: step 1 alone writes `TOT` (R130). -/
theorem tickEffect_tot (th : Word) (b : Block) : (tickEffect th b).tot = b.tot + 1 := by
  rw [tickEffect_eq]

/-- A stalling tick is not counted as run time: step 2 sees the motor off (R130). -/
theorem tickEffect_runt_of_stalled (th : Word) (b : Block) (hStall : th.toNat < (b.tot.toNat + 1) % 2 ^ 16) :
    (tickEffect th b).runt = b.runt := by
  rw [tickEffect_of_stalled th b hStall]

/-- Settles O32: the count after the tick is the one step 1 compares, so the stall and its absence are read off it;
step 1 on its own is its law `stallStep_eq`. -/
theorem stallStopsAboveThreshold : Obligations.StallStopsAboveThreshold := by
  refine ⟨?tick, ?step1⟩
  case tick =>
    intro s
    have hCount : (tickEffect s.par.stallThreshold s.blk).tot.toNat = (s.blk.tot.toNat + 1) % 2 ^ 16 := by
      rw [tickEffect_tot, add_one_toNat]
    refine ⟨_, exec_tick s, hCount, ?stalled, ?kept⟩
    case stalled =>
      intro hAbove
      have hStall := hAbove.trans_eq hCount
      exact ⟨tickEffect_dir_of_stalled _ s.blk hStall, tickEffect_runt_of_stalled _ s.blk hStall⟩
    case kept =>
      intro hAtMost hNoArrival
      exact tickEffect_dir_of_not_stopped _ s.blk (hCount.symm.trans_le hAtMost) hNoArrival
  case step1 =>
    exact fun threshold b => ⟨b.tot + 1, add_one_toNat b.tot, stallStep_eq threshold b⟩

end Sys2Proof.Machine
end

section
/-!
The register accesses of the HOST (44_register_access.md): the five register reads (R141 to R145), the two writes that
change a register (R147, R148), and the reserved encodings (R146, R150, R151).
-/

namespace Sys2Proof.Machine

/-! ## Register reads (R141 to R145) -/

/-- A read as a number: its word without data, and any data counted on from it, which is not decoded. -/
theorem decodeWord_read (a : Addr) (d : Word) (k : Nat) (hk : (mkBus false a 0).toNat = k) :
    decodeWord (.bus (BitVec.ofNat 20 (k + d.toNat))) = .ok (decodeRead a) := by
  rw [mkBus_ofNat false a d k hk]
  exact congrArg Except.ok (decodeBus_read a d)

/-- Settles O48: the words decode by their address, and a read completes with the map's word for that address. -/
theorem registerReadsReturnTheirFields : Obligations.RegisterReadsReturnTheirFields := by
  refine ⟨fun d => ?words, fun s => ?results⟩
  case words =>
    exact ⟨decodeWord_read 1 d 0x10000 rfl, decodeWord_read 2 d 0x20000 rfl, decodeWord_read 3 d 0x30000 rfl,
      decodeWord_read 4 d 0x40000 rfl, decodeWord_read 5 d 0x50000 rfl⟩
  case results =>
    exact ⟨exec_decodeRead 1 s, exec_decodeRead 2 s, exec_decodeRead 3 s, exec_decodeRead 4 s, exec_decodeRead 5 s⟩

/-! ## Register writes (R147, R148) -/

/-- A written `POSMAX` calibrates the block exactly if it is not zero, whatever the rest of the record (R31). -/
theorem calibrated_with_posmax_iff (b : Block) (v : Word) :
    ({ b with posmax := v } : Block).calibrated = true ↔ v ≠ 0 :=
  calibrated_iff _

/-- Settles O51: a write performs the map's action, and the read of the same address finds the value it put there. -/
theorem registerWritesTakeEffectAtOnce : Obligations.RegisterWritesTakeEffectAtOnce := by
  refine ⟨fun v => ⟨decodeWord_write 2 v 0xA0000 rfl, decodeWord_write 3 v 0xB0000 rfl⟩, fun v s => ?_⟩
  exact ⟨s.complete { s.blk with posmax := v } .nothing, s.complete { s.blk with postgt := v } .nothing,
    exec_decodeWrite 2 v s, rfl, calibrated_with_posmax_iff s.blk v, exec_decodeRead 2 _,
    exec_decodeWrite 3 v s, rfl, exec_decodeRead 3 _⟩

/-! ## Reserved encodings (R146, R150, R151) -/

/-- Every word is built from its fields, and its number is the sum of them in their places (R71). -/
theorem exists_mkBus_toNat (t : BusWord) :
    ∃ wr a d, t = mkBus wr a d ∧ t.toNat = wr.toNat * 0x80000 + a.toNat * 0x10000 + d.toNat := by
  have hPlaces : ∀ (wr : Bool) (a : Addr), (mkBus wr a 0).toNat = wr.toNat * 0x80000 + a.toNat * 0x10000 := by
    decide
  refine ⟨busWr t, busAddr t, busData t, (mkBus_fields t).symm, ?_⟩
  rw [← hPlaces, ← mkBus_toNat, mkBus_fields]

theorem decodeWord_reservedRead (t : BusWord) (hLow : 0x60000 ≤ t.toNat) (hHigh : t.toNat ≤ 0x7FFFF) :
    ∃ a, ReservedAddr a ∧ decodeWord (.bus t) = .ok (.rdRsv a) := by
  obtain ⟨wr, a, d, rfl, hNumber⟩ := exists_mkBus_toNat t
  cases wr with
  | true =>
    rw [Bool.toNat_true] at hNumber
    omega
  | false =>
    rw [Bool.toNat_false] at hNumber
    have hReserved : ReservedAddr a := by omega
    exact ⟨a, hReserved, congrArg Except.ok ((decodeBus_read a d).trans (decodeRead_reserved a hReserved))⟩

theorem decodeWord_reservedWrite (t : BusWord) (hLow : 0xE0000 ≤ t.toNat) :
    ∃ a v, ReservedAddr a ∧ decodeWord (.bus t) = .ok (.wrRsv a v) := by
  obtain ⟨wr, a, d, rfl, hNumber⟩ := exists_mkBus_toNat t
  cases wr with
  | false =>
    rw [Bool.toNat_false] at hNumber
    omega
  | true =>
    rw [Bool.toNat_true] at hNumber
    have hReserved : ReservedAddr a := by omega
    exact ⟨a, d, hReserved, congrArg Except.ok ((decodeBus_write a d).trans (decodeWrite_reserved a d hReserved))⟩

theorem decodeWord_reservedCommand (t : BusWord) (hLow : 0x80005 ≤ t.toNat) (hHigh : t.toNat ≤ 0x8FFFF) :
    ∃ v, ReservedCommand v ∧ decodeWord (.bus t) = .ok (.wrCsrRsv v) := by
  obtain ⟨wr, a, d, rfl, hNumber⟩ := exists_mkBus_toNat t
  cases wr with
  | false =>
    rw [Bool.toNat_false] at hNumber
    omega
  | true =>
    rw [Bool.toNat_true] at hNumber
    have hAddr : a = 0 := by bv_omega
    subst hAddr
    have hReserved : ReservedCommand d := by bv_omega
    exact ⟨d, hReserved, congrArg Except.ok ((decodeBus_write 0 d).trans (decodeCommand_reserved d hReserved))⟩

/-- Settles O26: the number of a word gives its direction, address and data, so each range is one row of the decoder;
each of the three operations completes with the record as it was. -/
theorem reservedEncodingsChangeNothing : Obligations.ReservedEncodingsChangeNothing :=
  ⟨decodeWord_reservedRead, decodeWord_reservedWrite, decodeWord_reservedCommand, fun _ _ _ => ⟨rfl, rfl, rfl⟩⟩

end Sys2Proof.Machine
end

section
/-!
The HOST's sequences line by line (45_host_sequences.md): what one turn of the foreground does at each point of
`WAITIDLE`, `PHASE`, `CALIBRATE`, the queries and `SEEK`.
-/

namespace Sys2Proof.Machine

/-! ## One turn at a given point -/

/-- A turn at the point `pt`, whose transaction `i` leaves the record `b` and returns `r`. -/
theorem step_turn_at {s : State} {pt : HostPt} {rest : List Arrival} (hHost : s.host = pt)
    (hArrivals : s.arrivals = .turn :: rest) (i : Instr) (b : Block) (r : Ret) (hInstr : hostInstr pt = some i)
    (hExec : exec i (s.withArrivals rest) = .next ((s.withArrivals rest).complete b r)) :
    ∃ u, step s = .next u ∧ u.blk = b ∧ u.arrivals = rest ∧ u.host = hostNext s.par r.word pt := by
  subst hHost
  exact ⟨_, step_turn s _ rest i hArrivals hInstr hExec, rfl, rfl, rfl⟩

/-- A turn at a point that reads address `a`: the record stays, and the next point is chosen by the map's word. -/
theorem step_turn_read {s : State} {pt : HostPt} {rest : List Arrival} (hHost : s.host = pt)
    (hArrivals : s.arrivals = .turn :: rest) (a : Addr) (hInstr : hostInstr pt = some (decodeRead a)) :
    ∃ u, step s = .next u ∧ u.blk = s.blk ∧ u.arrivals = rest ∧ u.host = hostNext s.par (memRead a s.blk) pt :=
  step_turn_at hHost hArrivals _ _ _ hInstr (exec_decodeRead a _)

/-- A turn at a point that writes `v` to address `a`: the map's action, and the next point whatever was returned. -/
theorem step_turn_write {s : State} {pt : HostPt} {rest : List Arrival} (hHost : s.host = pt)
    (hArrivals : s.arrivals = .turn :: rest) (a : Addr) (v : Word) (hInstr : hostInstr pt = some (decodeWrite a v)) :
    ∃ u, step s = .next u ∧ u.blk = memWrite a v s.blk ∧ u.arrivals = rest ∧ u.host = hostNext s.par 0 pt :=
  step_turn_at hHost hArrivals _ _ _ hInstr (exec_decodeWrite a v _)

/-- A turn at a point that enables the motor. -/
theorem step_turn_enable {s : State} {pt : HostPt} {rest : List Arrival} (hHost : s.host = pt)
    (hArrivals : s.arrivals = .turn :: rest) (d : Drive) (hInstr : hostInstr pt = some (enableInstr d)) :
    ∃ u, step s = .next u ∧ u.blk = enableEffect d s.blk ∧ u.arrivals = rest ∧ u.host = hostNext s.par 0 pt :=
  step_turn_at hHost hArrivals _ _ _ hInstr (exec_enableInstr d _)

/-- A call of a sequence whose first line reads address `a`, and that line. -/
theorem runSteps_call_read {s : State} {c : HostCall} {rest : List Arrival} (hIdle : s.host.running = false)
    (hArrivals : s.arrivals = .call c :: .turn :: rest) (a : Addr)
    (hInstr : hostInstr (startCall c) = some (decodeRead a)) :
    ∃ u, runSteps 2 s = .next u ∧ u.blk = s.blk ∧ u.arrivals = rest
      ∧ u.host = hostNext s.par (memRead a s.blk) (startCall c) := by
  have hCall := step_call s c _ hArrivals hIdle
  obtain ⟨u, hTurn, hBlk, hRest, hHost⟩ :=
    step_turn_read (s := { s.withArrivals (.turn :: rest) with host := startCall c }) rfl rfl a hInstr
  refine ⟨u, ?_, hBlk, hRest, hHost⟩
  rw [runSteps_succ 1 s _ hCall, runSteps_succ 0 _ u hTurn, runSteps]

/-! ## The points that branch on what they read -/

theorem hostNext_wait_status (par : Params) (b : Block) (w : WaitOf) :
    hostNext par b.status (.wait w) = if b.dir = .disabled then waitReturn w else .wait w := by
  simp only [hostNext, statusIdle_status, decide_eq_true_eq]

theorem hostNext_phCsr_status (par : Params) (b : Block) (p : PhaseOf) :
    hostNext par b.status (.phCsr p) = if b.dir = .disabled then phaseReturn true p else .phRunt p := by
  simp only [hostNext, statusIdle_status, decide_eq_true_eq]

theorem hostNext_phRunt (par : Params) (q : Word) (p : PhaseOf) :
    hostNext par q (.phRunt p) = if (p.bound par).toNat < q.toNat then .phDisable p else .phCsr p := by
  simp only [hostNext, gtU_iff]

theorem hostNext_calZeroEnd (par : Params) (q m : Word) :
    hostNext par q (.calZeroEnd m) = if m.toInt < par.motorMinRange.toInt then .calUnset else .done .calOk := by
  simp only [hostNext, ltS_iff]

/-! ## `WAITIDLE` (R168) -/

/-- A turn of a wait reads the status word and ends the wait if the motor is off. -/
theorem step_wait {s : State} {w : WaitOf} {rest : List Arrival} (hHost : s.host = .wait w)
    (hArrivals : s.arrivals = .turn :: rest) :
    ∃ u, step s = .next u ∧ u.blk = s.blk ∧ u.arrivals = rest
      ∧ u.host = if s.blk.dir = .disabled then waitReturn w else .wait w := by
  rw [← hostNext_wait_status s.par]
  exact step_turn_read hHost hArrivals 0 rfl

/-- Settles O57: the two branches of the wait's only line. -/
theorem waitIdleEndsWhenDisabled : Obligations.WaitIdleEndsWhenDisabled := by
  intro s w rest hHost hArrivals
  obtain ⟨u, hStep, hBlk, hRest, hNext⟩ := step_wait hHost hArrivals
  refine ⟨u, hStep, hBlk, hRest, fun hOff => ?_, fun hOn => ?_⟩
  · rw [hNext, if_pos hOff]
    cases w <;> rfl
  · rw [hNext, if_neg hOn]

/-! ## `PHASE` (R161) -/

/-- Settles O58: each of the four points is one transaction, and the two reads choose the next point. -/
theorem phaseLines : Obligations.PhaseLines := by
  refine ⟨fun s p rest hArrivals => ?_, fun _ _ _ _ => ⟨rfl, rfl, rfl, rfl⟩⟩
  refine ⟨?enable, ?pollDir, ?pollRunt, ?forceStop⟩
  case enable =>
    intro hHost
    obtain ⟨u, hStep, hBlk, -, hNext⟩ := step_turn_enable hHost hArrivals p.drive rfl
    exact ⟨u, hStep, hBlk, by rw [hBlk, enableEffect_dir], hNext⟩
  case pollDir =>
    intro hHost
    obtain ⟨u, hStep, hBlk, -, hNext⟩ := step_turn_read hHost hArrivals 0 rfl
    exact ⟨u, hStep, hBlk, hNext.trans (hostNext_phCsr_status s.par s.blk p)⟩
  case pollRunt =>
    intro hHost
    obtain ⟨u, hStep, hBlk, -, hNext⟩ := step_turn_read hHost hArrivals 5 rfl
    exact ⟨u, hStep, hBlk, hNext.trans (hostNext_phRunt s.par s.blk.runt p)⟩
  case forceStop =>
    intro hHost
    obtain ⟨u, hStep, hBlk, -, hNext⟩ := step_turn_write hHost hArrivals 0 3 rfl
    exact ⟨u, hStep, hBlk, hNext⟩

/-! ## `CALIBRATE` (R160) -/

/-- Line 8 negates the position; only the lowest position has no negative of its own (R160). -/
theorem negPos_toInt (p : Word) : (negPos p).toInt = (-p.toInt).bmod (2 ^ 16) := by
  rw [← zero_sub]
  exact sgn_wrap (0 - p.toInt)

/-- Settles O59: each line is one transaction: a write of `POSMAX`, a `ZPOS`, or the read of `POS`. -/
theorem calibrationLines : Obligations.CalibrationLines := by
  refine ⟨⟨rfl, fun _ => ⟨rfl, rfl, rfl, rfl⟩, fun _ => rfl, rfl, rfl⟩, fun s rest hArrivals => ?_⟩
  refine ⟨?clear, ?zeroOpen, ?readPos, ?writeMax, ?zeroEnd, ?unset⟩
  case clear =>
    intro hHost
    obtain ⟨u, hStep, hBlk, -, hNext⟩ := step_turn_write hHost hArrivals 2 0 rfl
    exact ⟨u, hStep, hBlk, hNext⟩
  case zeroOpen =>
    intro ok hHost
    obtain ⟨u, hStep, hBlk, -, hNext⟩ := step_turn_write hHost hArrivals 0 4 rfl
    exact ⟨u, hStep, hBlk, hNext⟩
  case readPos =>
    intro hHost
    obtain ⟨u, hStep, hBlk, -, hNext⟩ := step_turn_read hHost hArrivals 1 rfl
    exact ⟨u, negPos s.blk.pos, hStep, hBlk, hNext, negPos_toInt s.blk.pos⟩
  case writeMax =>
    intro m hHost
    obtain ⟨u, hStep, hBlk, -, hNext⟩ := step_turn_write hHost hArrivals 2 m rfl
    exact ⟨u, hStep, hBlk, hNext⟩
  case zeroEnd =>
    intro m hHost
    obtain ⟨u, hStep, hBlk, -, hNext⟩ := step_turn_write hHost hArrivals 0 4 rfl
    exact ⟨u, hStep, hBlk, hNext.trans (hostNext_calZeroEnd s.par 0 m)⟩
  case unset =>
    intro hHost
    obtain ⟨u, hStep, hBlk, -, hNext⟩ := step_turn_write hHost hArrivals 2 0 rfl
    exact ⟨u, hStep, hBlk, hNext⟩

/-! ## The queries (R170, R171) -/

/-- Settles O60: each query is its call and one read, and returns on what it read. -/
theorem queriesReturnSnapshots : Obligations.QueriesReturnSnapshots := by
  intro s rest hIdle
  refine ⟨fun hArrivals => ?curPos, fun hArrivals => ?isCal⟩
  case curPos =>
    obtain ⟨u, hRun, hBlk, -, hNext⟩ := runSteps_call_read hIdle hArrivals 1 rfl
    exact ⟨u, hRun, hBlk, hNext⟩
  case isCal =>
    obtain ⟨u, hRun, hBlk, -, hNext⟩ := runSteps_call_read hIdle hArrivals 2 rfl
    exact ⟨u, hRun, hBlk, hNext⟩

/-! ## `SEEK` (R165, R166) -/

/-- The clamp as one expression over the signed readings: first 0 from below, then `POSMAX` from above (R165). -/
theorem clampTarget_toInt (t m : Word) : (clampTarget t m).toInt = min (max t.toInt 0) m.toInt := by
  have hZero : (0 : Word).toInt = 0 := rfl
  simp only [clampTarget, ltS_iff, gtS_iff, hZero]
  by_cases hNeg : t.toInt < 0
  · rw [if_pos hNeg, max_eq_right hNeg.le, hZero]
    split <;> omega
  · rw [if_neg hNeg, max_eq_left (not_lt.mp hNeg)]
    split <;> omega

theorem seekDrive_dir (t p : Word) : (seekDrive t p).dir = if p.toInt < t.toInt then .opening else .closing := by
  simp only [seekDrive, gtS_iff]
  split <;> rfl

theorem Drive.dir_ne_disabled (d : Drive) : d.dir ≠ .disabled := by
  cases d <;> decide

/-- The call of a seek and its line 1, which reads whether the block is calibrated. -/
theorem runSteps_seek_start {s : State} {t : Word} {rest : List Arrival} (hIdle : s.host.running = false)
    (hArrivals : s.arrivals = .call (.seek t) :: .turn :: rest) :
    ∃ u, runSteps 2 s = .next u ∧ u.blk = s.blk ∧ u.arrivals = rest
      ∧ u.host = if s.blk.posmax = 0 then .done .sought else .skPos (clampTarget t s.blk.posmax) :=
  runSteps_call_read hIdle hArrivals 2 rfl

/-- Settles O55: line 1 of the seek reads 0 and returns. -/
theorem seekRefusedBeforeCalibration : Obligations.SeekRefusedBeforeCalibration := by
  intro s t rest hIdle hUncalibrated hArrivals
  obtain ⟨u, hRun, hBlk, hRest, hNext⟩ := runSteps_seek_start hIdle hArrivals
  exact ⟨u, hRun, hBlk, hNext.trans (if_pos hUncalibrated), hRest⟩

/-- Lines 5 and 6 of a seek: the clamped target is compared with the position read. -/
theorem step_seek_compare {s : State} {c : Word} {rest : List Arrival} (hHost : s.host = .skPos c)
    (hArrivals : s.arrivals = .turn :: rest) :
    ∃ u, step s = .next u ∧ u.blk = s.blk ∧ u.arrivals = rest
      ∧ u.host = if c = s.blk.pos then .done .sought else .skTarget c s.blk.pos :=
  step_turn_read hHost hArrivals 1 rfl

/-- Lines 7 and 8 of a seek: from the motor off, the target is written and a drive towards it starts. -/
theorem runSteps_seek_drive {s : State} {c p : Word} {rest : List Arrival} (hOff : s.blk.dir = .disabled)
    (hHost : s.host = .skTarget c p) (hArrivals : s.arrivals = .turn :: .turn :: rest) :
    ∃ u, runSteps 2 s = .next u ∧ u.host = .wait .seek
      ∧ u.blk = { s.blk with
          postgt := c
          dir := if p.toInt < c.toInt then .opening else .closing
          tot := 0, runt := 0, ticken := true } := by
  obtain ⟨v, hWrite, hWriteBlk, hWriteRest, hWriteNext⟩ := step_turn_write hHost hArrivals 3 c rfl
  have hTarget : v.blk = { s.blk with postgt := c } := hWriteBlk
  obtain ⟨u, hEnable, hEnableBlk, -, hEnableNext⟩ :=
    step_turn_enable hWriteNext hWriteRest (seekDrive c p) rfl
  have hEffective : v.blk.dir ≠ (seekDrive c p).dir := by
    rw [hTarget]
    exact fun hSame => Drive.dir_ne_disabled _ (hSame.symm.trans hOff)
  refine ⟨u, ?_, hEnableNext, ?_⟩
  · rw [runSteps_succ 1 s v hWrite, runSteps_succ 0 v u hEnable, runSteps]
  · rw [hEnableBlk, enableEffect_effective _ _ hEffective, seekDrive_dir, hTarget]

/-- Settles O54: line 1 decides whether the block is calibrated, line 6 whether the target is reached already, and
lines 7 and 8 start the drive; the wait is the law `step_wait`. -/
theorem seekClampsAndDrives : Obligations.SeekClampsAndDrives := by
  refine ⟨fun s t rest hIdle hOff hArrivals => ?lines, fun s rest hHost hArrivals => ?wait⟩
  case wait =>
    obtain ⟨u, hStep, hBlk, -, hNext⟩ := step_wait hHost hArrivals
    exact ⟨u, hStep, hBlk, hNext⟩
  case lines =>
    obtain ⟨u, hStart, hStartBlk, hStartRest, hStartNext⟩ := runSteps_seek_start hIdle hArrivals
    refine ⟨fun hUncalibrated => ⟨u, hStart, hStartBlk, hStartNext.trans (if_pos hUncalibrated)⟩,
      fun hCalibrated => ?_⟩
    rw [if_neg hCalibrated] at hStartNext
    obtain ⟨v, hCompare, hCompareBlk, hCompareRest, hCompareNext⟩ := step_seek_compare hStartNext hStartRest
    rw [hStartBlk] at hCompareBlk hCompareNext
    have hThree : runSteps 3 s = .next v := by
      rw [runSteps_add 2 1 s u hStart, runSteps_succ 0 u v hCompare, runSteps]
    have hClamp := clampTarget_toInt t s.blk.posmax
    by_cases hReached : clampTarget t s.blk.posmax = s.blk.pos
    · exact ⟨_, v, hClamp, fun _ => ⟨hThree, hCompareBlk, hCompareNext.trans (if_pos hReached)⟩,
        fun hShort => absurd hReached hShort⟩
    · rw [if_neg hReached] at hCompareNext
      obtain ⟨w, hDrive, hDriveNext, hDriveBlk⟩ :=
        runSteps_seek_drive (hCompareBlk ▸ hOff) hCompareNext hCompareRest
      rw [hCompareBlk] at hDriveBlk
      exact ⟨_, w, hClamp, fun hThere => absurd hThere hReached,
        fun _ => ⟨(runSteps_add 3 2 s v hThree).trans hDrive, hDriveNext, hDriveBlk⟩⟩

end Sys2Proof.Machine
end

section
/-!
The outcome of a calibration (R163, R164), whatever edges, ticks, pin changes and samples fall between its lines: what
those arrivals leave of the record, the invariant of the sequence by its points, and the induction over the run.
-/

namespace Sys2Proof.Machine

/-! ## What falls between two lines of a sequence -/

/-- What edges, ticks and samples keep of the record: `POSMAX` always, and with the motor off `DIR` and `POS` too. -/
structure KeptBetweenLines (b c : Block) : Prop where
  posmax : c.posmax = b.posmax
  dir : b.dir = .disabled → c.dir = .disabled
  pos : b.dir = .disabled → c.pos = b.pos

theorem KeptBetweenLines.refl (b : Block) : KeptBetweenLines b b := ⟨rfl, id, fun _ => rfl⟩

theorem edgeEffect_keptBetweenLines (b : Block) : KeptBetweenLines b (edgeEffect b) where
  posmax := by rw [edgeEffect_frame]
  dir hOff := (edgeEffect_dir b).trans hOff
  pos hOff := edgeEffect_pos_of_disabled b hOff

theorem tickEffect_keptBetweenLines (th : Word) (b : Block) : KeptBetweenLines b (tickEffect th b) where
  posmax := by rw [tickEffect_eq]
  dir hOff := tickEffect_dir_of_disabled th b hOff
  pos _ := by rw [tickEffect_eq]

/-- The edge of a sample, which stores the sampled level first (R108). -/
theorem sampledEdge_keptBetweenLines (b : Block) (level : Bool) :
    KeptBetweenLines b (edgeEffect { b with senseQ := level }) := by
  obtain ⟨hPosmax, hDir, hPos⟩ := edgeEffect_keptBetweenLines { b with senseQ := level }
  exact ⟨hPosmax, hDir, hPos⟩

/-- A step between two lines: the foreground stands, and the arrivals to come are still of the kinds admitted. -/
structure StepBetweenLines (s t : State) : Prop where
  host : t.host = s.host
  par : t.par = s.par
  blk : KeptBetweenLines s.blk t.blk
  arrivals : s.arrivals.all whileSequenceRuns = true → t.arrivals.all whileSequenceRuns = true

/-- What is left of an instant without `RESET` and without a transaction is such an instant again (R186). -/
theorem pushRest_all_whileSequenceRuns {e : EvVec} {s : State} (hNoReset : e.getLsbD 2 = false)
    (hAll : s.arrivals.all whileSequenceRuns = true) :
    (s.pushRest e none).arrivals.all whileSequenceRuns = true := by
  unfold State.pushRest
  split
  · exact hAll
  · simp only [State.withArrivals_arrivals, List.all_cons, whileSequenceRuns, hNoReset, hAll]
    rfl

theorem performInstant_betweenLines {e : EvVec} {s t : State} (hNoReset : e.getLsbD 2 = false)
    (h : performInstant e none s = .next t) : StepBetweenLines s t := by
  by_cases hEdge : e.getLsbD 0 = true
  · rw [performInstant_edge e none s hNoReset hEdge, exec_edge, State.pushRest_blk] at h
    cases h
    have hRest : (e &&& 0b110).getLsbD 2 = false := by rw [BitVec.getLsbD_and, hNoReset, Bool.false_and]
    exact ⟨State.pushRest_host .., State.pushRest_par .., edgeEffect_keptBetweenLines s.blk,
      pushRest_all_whileSequenceRuns hRest⟩
  rw [Bool.not_eq_true] at hEdge
  by_cases hTick : e.getLsbD 1 = true
  · rw [performInstant_tick e none s hNoReset hEdge hTick, exec_tick, State.pushRest_blk] at h
    cases h
    exact ⟨State.pushRest_host .., State.pushRest_par .., tickEffect_keptBetweenLines _ s.blk,
      pushRest_all_whileSequenceRuns rfl⟩
  · simp only [performInstant, hNoReset, hEdge, hTick] at h
    cases h
    exact ⟨rfl, rfl, .refl s.blk, id⟩

theorem samplePin_betweenLines {s t : State} (h : samplePin s = .next t) : StepBetweenLines s t := by
  by_cases hSame : s.sense = s.blk.senseQ
  · rw [samplePin_unchanged s hSame] at h
    cases h
    exact ⟨rfl, rfl, .refl s.blk, id⟩
  · rw [samplePin, if_neg hSame, exec_edge] at h
    cases h
    exact ⟨rfl, rfl, sampledEdge_keptBetweenLines s.blk s.sense, id⟩

/-- A turn of the foreground: nothing where no sequence runs, else the point's transaction and the next point. -/
theorem hostTurn_betweenLines_or_line {s t : State} (h : hostTurn s = .next t) :
    StepBetweenLines s t ∨ ∃ i u, hostInstr s.host = some i ∧ exec i s = .next u
      ∧ t = { u with host := hostNext s.par u.ret.word s.host } := by
  rcases hostTurn_cases s with ⟨-, hNothing⟩ | ⟨i, b, r, hInstr, hExec, hLine⟩
  · cases hNothing.symm.trans h
    exact .inl ⟨rfl, rfl, .refl s.blk, id⟩
  · cases hLine.symm.trans h
    exact .inr ⟨i, _, hInstr, hExec, rfl⟩

/-- Every arrival admitted while a sequence runs leaves the sequence where it stands, or is its next line. -/
theorem performArrival_betweenLines_or_line {a : Arrival} {s t : State} (hAdmitted : whileSequenceRuns a = true)
    (h : performArrival a s = .next t) :
    StepBetweenLines s t ∨ ∃ i u, hostInstr s.host = some i ∧ exec i s = .next u
      ∧ t = { u with host := hostNext s.par u.ret.word s.host } := by
  cases a with
  | instant e b =>
    obtain ⟨hNoReset, hNoBus⟩ : e.getLsbD 2 = false ∧ b = none := by simpa [whileSequenceRuns] using hAdmitted
    subst hNoBus
    exact .inl (performInstant_betweenLines hNoReset h)
  | pin level =>
    cases h
    exact .inl ⟨rfl, rfl, .refl s.blk, id⟩
  | sample => exact .inl (samplePin_betweenLines h)
  | turn => exact hostTurn_betweenLines_or_line h
  | call c => cases hAdmitted
  | powerUp => cases hAdmitted

/-! ## The invariant of a calibration, by its points -/

/-- The two phases of `CALIBRATE`, as against one called on its own. -/
def PhaseOf.inCalibration : PhaseOf → Prop
  | .own _ _ => False
  | .calOpen => True
  | .calClose => True

/-- What holds of the record at each point of a calibration called with the motor off. In both phases `POSMAX` is 0,
so an error returned from there leaves the block uncalibrated; outside the phases the motor is off. A point of any
other sequence is not reached. -/
def CalibrationPoint (par : Params) (b : Block) : HostPt → Prop
  | .calClear => b.dir = .disabled
  | .phEnable p => p.inCalibration ∧ b.posmax = 0
  | .phCsr p => p.inCalibration ∧ b.posmax = 0
  | .phRunt p => p.inCalibration ∧ b.posmax = 0
  | .phDisable p => p.inCalibration ∧ b.posmax = 0
  | .calZeroOpen _ => b.posmax = 0 ∧ b.dir = .disabled
  | .calReadPos => b.dir = .disabled
  | .calWriteMax _ => b.dir = .disabled
  | .calZeroEnd m => b.posmax = m ∧ b.dir = .disabled
  | .calUnset => b.dir = .disabled
  | .done (.calErr _) => b.posmax = 0 ∧ b.dir = .disabled
  | .done .calOk => par.motorMinRange.toInt ≤ b.posmax.toInt ∧ b.pos = 0 ∧ b.dir = .disabled
  | _ => False

/-- What falls between two lines keeps the facts of the point. -/
theorem CalibrationPoint.of_kept {par : Params} {b c : Block} {pt : HostPt} (hKept : KeptBetweenLines b c)
    (h : CalibrationPoint par b pt) : CalibrationPoint par c pt := by
  obtain ⟨hPosmax, hDir, hPos⟩ := hKept
  cases pt with
  | calClear | calReadPos | calWriteMax | calUnset => exact hDir h
  | phEnable | phCsr | phRunt | phDisable => exact ⟨h.1, hPosmax.trans h.2⟩
  | calZeroOpen | calZeroEnd => exact ⟨hPosmax.trans h.1, hDir h.2⟩
  | done r =>
    cases r with
    | calErr => exact ⟨hPosmax.trans h.1, hDir h.2⟩
    | calOk =>
      obtain ⟨hRange, hZero, hOff⟩ := h
      exact ⟨hPosmax ▸ hRange, (hPos hOff).trans hZero, hDir hOff⟩
    | _ => exact h.elim
  | _ => exact h.elim

/-- A phase of a calibration returns, with its verdict, to a point that needs the motor off. -/
theorem calibrationPoint_phaseReturn (par : Params) {b : Block} {p : PhaseOf} (ok : Bool) (hPhase : p.inCalibration)
    (hUncalibrated : b.posmax = 0) (hOff : b.dir = .disabled) : CalibrationPoint par b (phaseReturn ok p) := by
  cases p with
  | own => exact hPhase.elim
  | calOpen => exact ⟨hUncalibrated, hOff⟩
  | calClose =>
    cases ok with
    | true => exact hOff
    | false => exact ⟨hUncalibrated, hOff⟩

/-- Each line of a calibration takes the facts of its point to those of the next. -/
theorem CalibrationPoint.line {s u : State} {pt : HostPt} {i : Instr} (h : CalibrationPoint s.par s.blk pt)
    (hInstr : hostInstr pt = some i) (hExec : exec i s = .next u) :
    CalibrationPoint s.par u.blk (hostNext s.par u.ret.word pt) := by
  cases pt with
  | calClear =>
    cases hInstr
    cases hExec
    exact ⟨trivial, rfl⟩
  | phEnable p =>
    cases hInstr
    rw [exec_enableInstr] at hExec
    cases hExec
    exact ⟨h.1, (enableEffect_posmax p.drive s.blk).trans h.2⟩
  | phCsr p =>
    cases hInstr
    cases hExec
    change CalibrationPoint s.par s.blk (hostNext s.par s.blk.status (.phCsr p))
    rw [hostNext_phCsr_status]
    split
    · next hOff => exact calibrationPoint_phaseReturn s.par true h.1 h.2 hOff
    · exact h
  | phRunt p =>
    cases hInstr
    cases hExec
    change CalibrationPoint s.par s.blk (hostNext s.par s.blk.runt (.phRunt p))
    rw [hostNext_phRunt]
    split <;> exact h
  | phDisable p =>
    cases hInstr
    cases hExec
    exact calibrationPoint_phaseReturn s.par false h.1 h.2 rfl
  | calZeroOpen ok =>
    cases hInstr
    cases hExec
    cases ok with
    | true => exact ⟨trivial, h.1⟩
    | false => exact h
  | calReadPos =>
    cases hInstr
    cases hExec
    exact h
  | calWriteMax m =>
    cases hInstr
    cases hExec
    exact ⟨rfl, h⟩
  | calZeroEnd m =>
    cases hInstr
    cases hExec
    obtain ⟨hRange, hOff⟩ := h
    change CalibrationPoint s.par (zeroPos s.blk) (hostNext s.par 0 (.calZeroEnd m))
    rw [hostNext_calZeroEnd]
    split
    · exact hOff
    · next hAtLeast => exact ⟨hRange ▸ not_lt.mp hAtLeast, rfl, hOff⟩
  | calUnset =>
    cases hInstr
    cases hExec
    exact ⟨rfl, h⟩
  | idle | done => cases hInstr
  | _ => exact h.elim

/-! ## The run of a calibration -/

/-- A state in a calibration or after its return, with nothing else of the HOST's to come. -/
structure InCalibration (par : Params) (s : State) : Prop where
  par_eq : s.par = par
  arrivals : s.arrivals.all whileSequenceRuns = true
  point : CalibrationPoint s.par s.blk s.host

theorem InCalibration.of_step {par : Params} {s t : State} (hIn : InCalibration par s) (h : step s = .next t) :
    InCalibration par t := by
  obtain ⟨hPar, hAll, hPoint⟩ := hIn
  cases hArrivals : s.arrivals with
  | nil =>
    rw [step_idle s hArrivals] at h
    cases h
    exact ⟨hPar, hAll, hPoint⟩
  | cons a rest =>
    rw [hArrivals, List.all_cons, Bool.and_eq_true] at hAll
    obtain ⟨hAdmitted, hRest⟩ := hAll
    rw [step_cons s a rest hArrivals] at h
    rcases performArrival_betweenLines_or_line hAdmitted h with hBetween | ⟨i, u, hInstr, hExec, rfl⟩
    · refine ⟨hBetween.par.trans hPar, hBetween.arrivals hRest, ?_⟩
      rw [hBetween.par, hBetween.host]
      exact hPoint.of_kept hBetween.blk
    · have hNext := CalibrationPoint.line (s := s.withArrivals rest) hPoint hInstr hExec
      obtain ⟨b, r, hFrame⟩ := exec_frame i (s.withArrivals rest)
      cases hFrame.symm.trans hExec
      exact ⟨hPar, hRest, hNext⟩

/-- The run that a call of `CALIBRATE` begins, whatever of the admitted kinds follows the call. -/
theorem inCalibration_of_call {s t : State} {n : Nat} {rest : List Arrival} (hIdle : s.host.running = false)
    (hOff : s.blk.dir = .disabled) (hArrivals : s.arrivals = .call .calibrate :: rest)
    (hAll : rest.all whileSequenceRuns = true) (hRun : runSteps (n + 1) s = .next t) : InCalibration s.par t := by
  rw [runSteps_succ n s _ (step_call s .calibrate rest hArrivals hIdle)] at hRun
  have hStart : InCalibration s.par { s.withArrivals rest with host := startCall .calibrate } := ⟨rfl, hAll, hOff⟩
  exact runSteps_invariant (InCalibration s.par) (fun _ _ => InCalibration.of_step) n _ t hStart hRun

/-- `MOTOR_MIN_RANGE` is positive in signed reading too (R8 (c)). -/
theorem motorMinRange_toInt_pos {par : Params} (h : par.Valid) : 0 < par.motorMinRange.toInt := by
  obtain ⟨-, -, -, hLow, hHigh⟩ := h
  rw [BitVec.toInt_eq_toNat_of_lt (by omega)]
  omega

/-- The points at which a calibration has returned are its three results (R164). -/
theorem CalibrationPoint.result {par : Params} {b : Block} {r : HostRet} (h : CalibrationPoint par b (.done r)) :
    r = .calOk ∨ r = .calErr .runtimeExceeded ∨ r = .calErr .rangeTooSmall := by
  cases r with
  | calOk => exact .inl rfl
  | calErr e =>
    cases e with
    | runtimeExceeded => exact .inr (.inl rfl)
    | rangeTooSmall => exact .inr (.inr rfl)
  | _ => exact h.elim

/-- Line 10 and the range check, and line 11 after it where the range is too small (R163). -/
theorem calibration_range_check {s : State} {m : Word} {rest : List Arrival} (hHost : s.host = .calZeroEnd m)
    (hArrivals : s.arrivals = .turn :: .turn :: rest) :
    (s.par.motorMinRange.toInt ≤ m.toInt →
        ∃ u, step s = .next u ∧ u.host = .done .calOk ∧ u.blk = { s.blk with pos := 0 })
      ∧ (m.toInt < s.par.motorMinRange.toInt →
        ∃ u, runSteps 2 s = .next u ∧ u.host = .done (.calErr .rangeTooSmall)
          ∧ u.blk = { s.blk with pos := 0, posmax := 0 }) := by
  obtain ⟨u, hStep, hBlk, hRest, hNext⟩ := step_turn_write hHost hArrivals 0 4 rfl
  rw [hostNext_calZeroEnd] at hNext
  have hZeroed : u.blk = { s.blk with pos := 0 } := hBlk
  refine ⟨fun hEnough => ⟨u, hStep, hNext.trans (if_neg hEnough.not_gt), hZeroed⟩, fun hShort => ?_⟩
  obtain ⟨v, hUnset, hUnsetBlk, -, hUnsetNext⟩ :=
    step_turn_write (hNext.trans (if_pos hShort)) hRest 2 0 rfl
  refine ⟨v, ?_, hUnsetNext, ?_⟩
  · rw [runSteps_succ 1 s u hStep, runSteps_succ 0 u v hUnset, runSteps]
  · rw [hUnsetBlk, hZeroed]
    rfl

/-- Settles O52: the invariant of the calibration at the end of its run, read at the points where it has returned; and
the range check by its two branches. -/
theorem calibrationOutcome : Obligations.CalibrationOutcome := by
  refine ⟨?outcome, fun s m rest hHost hArrivals => calibration_range_check hHost hArrivals⟩
  intro s t n rest hSafe hIdle hOff hArrivals hAll hRun
  obtain ⟨hPar, -, hPoint⟩ := inCalibration_of_call hIdle hOff hArrivals hAll hRun
  refine ⟨?error, ?ok, ?results⟩
  case error =>
    intro e hReturned
    rw [hReturned] at hPoint
    exact hPoint
  case ok =>
    intro hReturned
    rw [hReturned] at hPoint
    obtain ⟨hRange, hZero, hStopped⟩ := hPoint
    obtain ⟨hValid, -, -⟩ := hSafe
    exact ⟨hRange, (motorMinRange_toInt_pos (hPar ▸ hValid)).trans_le hRange, hZero, hStopped⟩
  case results =>
    intro r hReturned
    rw [hReturned] at hPoint
    exact hPoint.result

end Sys2Proof.Machine
end

section
/-!
The operations of one instant, in the order of R186, and the steps that perform them; and that every operation and
every step completes (R180).
-/

namespace Sys2Proof.Machine

/-! ## Every operation and every step completes (R180) -/

theorem exec_completes (i : Instr) (s : State) : ∃ t, exec i s = .next t := by
  obtain ⟨b, r, hExec⟩ := exec_frame i s
  exact ⟨_, hExec⟩

theorem performArrival_completes (a : Arrival) (s : State) : ∃ t, performArrival a s = .next t := by
  cases a with
  | instant e b =>
    rcases performInstant_cases e b s with hNothing | ⟨i, l, hExec⟩
    · exact ⟨s, hNothing⟩
    · obtain ⟨t, ht⟩ := exec_completes i (s.withArrivals l)
      exact ⟨t, hExec.trans ht⟩
  | pin level => exact ⟨_, rfl⟩
  | sample =>
    by_cases hSame : s.sense = s.blk.senseQ
    · exact ⟨s, samplePin_unchanged s hSame⟩
    · exact ⟨_, samplePin_changed s hSame⟩
  | call c => exact ⟨_, rfl⟩
  | turn =>
    rcases hostTurn_cases s with ⟨-, hNothing⟩ | ⟨i, b, r, -, -, hLine⟩
    · exact ⟨s, hNothing⟩
    · exact ⟨_, hLine⟩
  | powerUp => exact exec_completes .reset _

theorem step_completes (s : State) : ∃ t, step s = .next t := by
  cases hArrivals : s.arrivals with
  | nil => exact ⟨s, step_idle s hArrivals⟩
  | cons a rest =>
    rw [step_cons s a rest hArrivals]
    exact performArrival_completes a _

/-- Settles O10: an operation by its frame, a step by the arrival it takes. -/
theorem everyOperationCompletes : Obligations.EveryOperationCompletes :=
  ⟨exec_completes, step_completes⟩

/-! ## The operations of one instant (R186) -/

theorem instantOps_reset (e : EvVec) (b : Option BusWord) (h2 : e.getLsbD 2 = true) :
    instantOps e b = [.reset] := if_pos h2

theorem instantOps_of_no_reset (e : EvVec) (b : Option BusWord) (h2 : e.getLsbD 2 = false) :
    instantOps e b = (if e.getLsbD 0 = true then [Instr.edge] else [])
      ++ ((if e.getLsbD 1 = true then [Instr.tick] else []) ++ (b.map decodeBus).toList) := by
  have hNoReset := ne_true_of_eq_false h2
  rw [instantOps, decodeEv, if_neg hNoReset, if_neg hNoReset, List.append_assoc]

theorem instantOps_edge (e : EvVec) (b : Option BusWord) (h2 : e.getLsbD 2 = false) (h0 : e.getLsbD 0 = true) :
    instantOps e b = .edge :: instantOps (e &&& 0b110) b := by
  have hRest : (e &&& 0b110).getLsbD 2 = false := by rw [BitVec.getLsbD_and, h2, Bool.false_and]
  rw [instantOps_of_no_reset e b h2, instantOps_of_no_reset _ b hRest]
  simp [h0]

theorem instantOps_tick (e : EvVec) (b : Option BusWord) (h2 : e.getLsbD 2 = false) (h0 : e.getLsbD 0 = false)
    (h1 : e.getLsbD 1 = true) : instantOps e b = .tick :: instantOps 0 b := by
  rw [instantOps_of_no_reset e b h2, instantOps_of_no_reset 0 b rfl,
    if_neg (ne_true_of_eq_false h0), if_pos h1]
  rfl

theorem evVec_eq_zero (e : EvVec) (h2 : e.getLsbD 2 = false) (h0 : e.getLsbD 0 = false)
    (h1 : e.getLsbD 1 = false) : e = 0 := by
  revert e
  decide

/-- An instant is over exactly when no line of it is up and no transaction is left. -/
theorem instantOps_eq_nil_iff (e : EvVec) (b : Option BusWord) : instantOps e b = [] ↔ e = 0 ∧ b = none := by
  constructor
  · intro hNil
    by_cases h2 : e.getLsbD 2 = true
    · simp [instantOps_reset e b h2] at hNil
    · rw [Bool.not_eq_true] at h2
      rw [instantOps_of_no_reset e b h2] at hNil
      obtain ⟨h0, h1, hBus⟩ : e.getLsbD 0 = false ∧ e.getLsbD 1 = false ∧ b = none := by simpa using hNil
      exact ⟨evVec_eq_zero e h2 h0 h1, hBus⟩
  · rintro ⟨rfl, rfl⟩
    rfl

theorem State.pushRest_complete (e : EvVec) (b : Option BusWord) (c : Block) (r : Ret) (s : State) :
    (s.pushRest e b).complete c r = (s.complete c r).pushRest e b := by
  unfold State.pushRest
  split <;> rfl

/-- An instant that is not over stands first in the schedule. -/
theorem State.pushRest_of_instantOps (e : EvVec) (b : Option BusWord) (s : State) (h : instantOps e b ≠ []) :
    s.pushRest e b = s.withArrivals (.instant e b :: s.arrivals) :=
  if_neg (mt (instantOps_eq_nil_iff e b).mpr h)

/-- The step of an instant performs its first operation and leaves the instant of the other operations. -/
theorem performInstant_head {e : EvVec} {b : Option BusWord} {i : Instr} {ops : List Instr}
    (h : instantOps e b = i :: ops) :
    ∃ e' b', instantOps e' b' = ops ∧ ∀ s, performInstant e b s = exec i (s.pushRest e' b') := by
  by_cases h2 : e.getLsbD 2 = true
  · cases (instantOps_reset e b h2).symm.trans h
    exact ⟨0, none, rfl, fun s => performInstant_reset e b s h2⟩
  rw [Bool.not_eq_true] at h2
  by_cases h0 : e.getLsbD 0 = true
  · cases (instantOps_edge e b h2 h0).symm.trans h
    exact ⟨e &&& 0b110, b, rfl, fun s => performInstant_edge e b s h2 h0⟩
  rw [Bool.not_eq_true] at h0
  by_cases h1 : e.getLsbD 1 = true
  · cases (instantOps_tick e b h2 h0 h1).symm.trans h
    exact ⟨0, b, rfl, fun s => performInstant_tick e b s h2 h0 h1⟩
  rw [Bool.not_eq_true] at h1
  obtain rfl := evVec_eq_zero e h2 h0 h1
  cases b with
  | none => cases h
  | some t =>
    cases h
    exact ⟨0, none, rfl, performInstant_bus t⟩

/-- An instant first in the schedule takes one step for each of its operations, and performs them in order. -/
theorem runSteps_pushRest (e : EvVec) (b : Option BusWord) (s : State) :
    runSteps (instantOps e b).length (s.pushRest e b) = runOps (instantOps e b) s := by
  induction hOps : instantOps e b generalizing e b s with
  | nil =>
    obtain ⟨rfl, rfl⟩ := (instantOps_eq_nil_iff e b).mp hOps
    rfl
  | cons i ops ih =>
    obtain ⟨e', b', hRest, hHead⟩ := performInstant_head hOps
    obtain ⟨c, r, hExec, hExecRest⟩ := exec_withArrivals i s (s.pushRest e' b').arrivals
    rw [← State.pushRest_eq, State.pushRest_complete] at hExecRest
    have hStep : step (s.pushRest e b) = .next ((s.complete c r).pushRest e' b') := by
      rw [State.pushRest_of_instantOps e b s (by simp [hOps]), step_cons _ _ _ (State.withArrivals_arrivals _ s)]
      exact (hHead s).trans hExecRest
    rw [List.length_cons, runSteps_succ _ _ _ hStep, runOps_cons i ops s _ hExec]
    exact ih e' b' (s.complete c r) hRest

/-- Settles O8: `RESET` discards its instant; without it the instant is its operations in order, one step each. -/
theorem instantRunsInPriorityOrder : Obligations.InstantRunsInPriorityOrder := by
  intro s e b rest hArrivals
  refine ⟨fun h2 => ?reset, fun h2 ops hOps hSome => ?others⟩
  case reset =>
    rw [step_cons s _ rest hArrivals]
    exact performInstant_reset e b _ h2
  case others =>
    rw [← instantOps_of_no_reset e b h2] at hOps
    subst hOps
    have hFirst : (s.withArrivals rest).pushRest e b = s := by
      rw [State.pushRest_of_instantOps e b _ hSome, State.withArrivals_arrivals, ← hArrivals]
      rfl
    rw [← runSteps_pushRest, hFirst]

end Sys2Proof.Machine
end

section
/-!
`RESET` as a whole next state (R210), and the enable hazard: in the direction already set it does nothing, so a
drive is restarted by `DISABLE` and then `ENABLE` (R223).
-/

namespace Sys2Proof.Machine

/-! ## `RESET` (R210) -/

theorem decodeWord_of_resetBit (e : EvVec) (h : e.getLsbD 2 = true) : decodeWord (.ev e) = .ok .reset := by
  rw [decodeWord, decodeEv_reset e h]

/-- Settles O13: bit 2 of the vector makes it `RESET` alone, and `RESET` puts `Block.reset` in place of the record. -/
theorem resetWritesEveryField : Obligations.ResetWritesEveryField :=
  ⟨decodeWord_of_resetBit, exec_reset⟩

/-! ## `DISABLE`, then `ENABLE` (R223) -/

theorem exec_disable (s : State) : exec .disable s = .next (s.complete (disableEffect s.blk) .nothing) := rfl

/-- After a `DISABLE` no direction is set, so the enable that follows is effective, whatever `DIR` was before. -/
theorem runOps_disable_enableInstr (d : Drive) (s : State) :
    runOps [.disable, enableInstr d] s = .next { s with
      blk := { s.blk with dir := d.dir, tot := 0, runt := 0, ticken := true }
      ret := .nothing } := by
  have hOff : (s.complete (disableEffect s.blk) .nothing).blk.dir ≠ d.dir := d.dir_ne_disabled.symm
  rw [runOps_cons .disable _ s _ (exec_disable s), runOps_single, exec_enableInstr_effective d _ hOff]
  rfl

/-- Where the drive already runs in the enable's direction, `DISABLE` and `ENABLE` leave `DIR` as it was. -/
theorem runOps_disable_enableInstr_same (d : Drive) (s : State) (h : s.blk.dir = d.dir) :
    runOps [.disable, enableInstr d] s = .next { s with
      blk := { s.blk with tot := 0, runt := 0, ticken := true }
      ret := .nothing } := by
  rw [runOps_disable_enableInstr, ← h]

/-- Settles O20: the enable alone, and the enable after a `DISABLE`, in each direction. -/
theorem sameDirectionEnableDoesNothing : Obligations.SameDirectionEnableDoesNothing := by
  rintro s i d (⟨rfl, rfl⟩ | ⟨rfl, rfl⟩) hDir
  · exact ⟨exec_enableInstr_same .opening s hDir, runOps_disable_enableInstr_same .opening s hDir⟩
  · exact ⟨exec_enableInstr_same .closing s hDir, runOps_disable_enableInstr_same .closing s hDir⟩

end Sys2Proof.Machine
end

section
/-!
The encoder against the decoder: an instruction's word decodes to it, and a bus word's instruction encodes to the word
(R71, R76).
-/

namespace Sys2Proof

/-! ## From the instruction to its word and back -/

theorem decodeWord_write_fields (a : Addr) (v : Word) :
    decodeWord (.bus (mkBus true a v)) = .ok (decodeWrite a v) :=
  congrArg Except.ok (decodeBus_write a v)

theorem decodeWord_read_fields (a : Addr) (d : Word) :
    decodeWord (.bus (mkBus false a d)) = .ok (decodeRead a) :=
  congrArg Except.ok (decodeBus_read a d)

/-- Settles O2: an operation without operand has one word; the others are a built write or read, decoded by its fields,
where the reserved rows need their operand in its range. -/
theorem encodedInstructionDecodesBack : Obligations.EncodedInstructionDecodesBack := by
  intro i hWellFormed
  cases i with
  | reset | edge | tick => rfl
  | nop | enableO | enableC | disable | zpos => rfl
  | rdCsr | rdPos | rdPosmax | rdPostgt | rdTot | rdRunt => rfl
  | wrPos v => exact decodeWord_write_fields 1 v
  | wrPosmax v => exact decodeWord_write_fields 2 v
  | wrPostgt v => exact decodeWord_write_fields 3 v
  | wrTot v => exact decodeWord_write_fields 4 v
  | wrRunt v => exact decodeWord_write_fields 5 v
  | wrCsrRsv v =>
    have hCommand := decodeCommand_reserved v (of_decide_eq_true hWellFormed)
    exact (decodeWord_write_fields 0 v).trans (congrArg Except.ok hCommand)
  | wrRsv a v =>
    have hWrite := decodeWrite_reserved a v (of_decide_eq_true hWellFormed)
    exact (decodeWord_write_fields a v).trans (congrArg Except.ok hWrite)
  | rdRsv a =>
    have hRead := decodeRead_reserved a (of_decide_eq_true hWellFormed)
    exact (decodeWord_read_fields a 0).trans (congrArg Except.ok hRead)

/-! ## From the word to its instruction and back -/

theorem decodeCommand_encodes_back (d : Word) :
    WellFormed (decodeCommand d) = true ∧ encode (decodeCommand d) = .bus (mkBus true 0 d) := by
  rcases command_cases d with rfl | rfl | rfl | rfl | rfl | hReserved
  · exact ⟨rfl, rfl⟩
  · exact ⟨rfl, rfl⟩
  · exact ⟨rfl, rfl⟩
  · exact ⟨rfl, rfl⟩
  · exact ⟨rfl, rfl⟩
  · rw [decodeCommand_reserved d hReserved]
    exact ⟨decide_eq_true hReserved, rfl⟩

theorem decodeWrite_encodes_back (a : Addr) (d : Word) :
    WellFormed (decodeWrite a d) = true ∧ encode (decodeWrite a d) = .bus (mkBus true a d) := by
  rcases addr_cases a with rfl | rfl | rfl | rfl | rfl | rfl | hReserved
  · exact decodeCommand_encodes_back d
  · exact ⟨rfl, rfl⟩
  · exact ⟨rfl, rfl⟩
  · exact ⟨rfl, rfl⟩
  · exact ⟨rfl, rfl⟩
  · exact ⟨rfl, rfl⟩
  · rw [decodeWrite_reserved a d hReserved]
    exact ⟨decide_eq_true hReserved, rfl⟩

/-- A read's data is not decoded, so its encoding carries none (R71). -/
theorem decodeRead_encodes_back : ∀ a : Addr,
    WellFormed (decodeRead a) = true ∧ encode (decodeRead a) = .bus (mkBus false a 0) := by
  decide

/-- Settles O3: a word is built from its fields; a write keeps all of them, a read all but its data. -/
theorem everyBusWordEncodesBack : Obligations.EveryBusWordEncodesBack := by
  intro t
  have hFields := mkBus_fields t
  cases hWr : busWr t with
  | false =>
    rw [decodeBus, hWr]
    exact decodeRead_encodes_back (busAddr t)
  | true =>
    rw [hWr] at hFields
    rw [decodeBus, hWr, if_pos rfl, if_pos rfl]
    obtain ⟨hWellFormed, hEncode⟩ := decodeWrite_encodes_back (busAddr t) (busData t)
    exact ⟨hWellFormed, hEncode.trans (congrArg OpWord.bus hFields)⟩

/-- Settles O1: the words are closed, so each decodes by evaluation. -/
theorem sampleWordsDecodeAsEncoded : Obligations.SampleWordsDecodeAsEncoded :=
  ⟨rfl, rfl, rfl, rfl, rfl, rfl, rfl, rfl, rfl⟩

end Sys2Proof
end

section
/-!
What an operation writes, said once by the operation (R33), and from it: the writers of each field, and the invariant
of the reachable states (R36, R132).
-/

namespace Sys2Proof.Machine

/-! ## The record after an operation -/

/-- Everything an operation can do to the record: the two enables, `DISABLE`, `EDGE`, `TICK`, `RESET`, `ZPOS` and two
register writes have an effect on it, every other operation leaves it. -/
inductive RecordWrite (s t : State) : Instr → Prop where
  | enable (d : Drive) (hBlk : t.blk = enableEffect d s.blk) : RecordWrite s t (enableInstr d)
  | disable (hBlk : t.blk = disableEffect s.blk) : RecordWrite s t .disable
  | edge (hBlk : t.blk = edgeEffect s.blk) : RecordWrite s t .edge
  | tick (hBlk : t.blk = tickEffect s.par.stallThreshold s.blk) (hRet : t.ret = .k t.blk.ticken) :
      RecordWrite s t .tick
  | reset (hBlk : t.blk = Block.reset s.sense) : RecordWrite s t .reset
  | zpos (hBlk : t.blk = zeroPos s.blk) : RecordWrite s t .zpos
  | posmax (v : Word) (hBlk : t.blk = { s.blk with posmax := v }) : RecordWrite s t (.wrPosmax v)
  | postgt (v : Word) (hBlk : t.blk = { s.blk with postgt := v }) : RecordWrite s t (.wrPostgt v)
  | kept (i : Instr) (hBlk : t.blk = s.blk) : RecordWrite s t i

theorem exec_recordWrite {i : Instr} {s t : State} (h : exec i s = .next t) : RecordWrite s t i := by
  cases i with
  | enableO =>
    cases h
    exact .enable .opening rfl
  | enableC =>
    cases h
    exact .enable .closing rfl
  | disable =>
    cases h
    exact .disable rfl
  | edge =>
    cases h
    exact .edge rfl
  | tick =>
    cases h
    exact .tick rfl (congrArg Ret.k (tickEffect_ticken _ s.blk).symm)
  | reset =>
    cases h
    exact .reset rfl
  | zpos =>
    cases h
    exact .zpos rfl
  | wrPosmax v =>
    cases h
    exact .posmax v rfl
  | wrPostgt v =>
    cases h
    exact .postgt v rfl
  | _ =>
    cases h
    exact .kept _ rfl

/-! ## The fields an effect leaves -/

theorem edgeEffect_posmax (b : Block) : (edgeEffect b).posmax = b.posmax := by rw [edgeEffect_frame]
theorem edgeEffect_postgt (b : Block) : (edgeEffect b).postgt = b.postgt := by rw [edgeEffect_frame]
theorem edgeEffect_runt (b : Block) : (edgeEffect b).runt = b.runt := by rw [edgeEffect_frame]
theorem edgeEffect_senseQ (b : Block) : (edgeEffect b).senseQ = b.senseQ := by rw [edgeEffect_frame]

theorem tickEffect_pos (th : Word) (b : Block) : (tickEffect th b).pos = b.pos := by rw [tickEffect_eq]
theorem tickEffect_posmax (th : Word) (b : Block) : (tickEffect th b).posmax = b.posmax := by rw [tickEffect_eq]
theorem tickEffect_postgt (th : Word) (b : Block) : (tickEffect th b).postgt = b.postgt := by rw [tickEffect_eq]
theorem tickEffect_senseQ (th : Word) (b : Block) : (tickEffect th b).senseQ = b.senseQ := by rw [tickEffect_eq]

theorem enableInstr_cases (d : Drive) : enableInstr d = .enableO ∨ enableInstr d = .enableC := by
  cases d with
  | opening => exact .inl rfl
  | closing => exact .inr rfl

/-- An enable that changes anything at all is effective: it changes `DIR` and starts the drive afresh (R90). -/
theorem enableEffect_of_changed {α : Type} (field : Block → α) {d : Drive} {b : Block}
    (hChanged : field (enableEffect d b) ≠ field b) :
    (enableEffect d b).dir ≠ b.dir
      ∧ enableEffect d b = { b with dir := d.dir, tot := 0, runt := 0, ticken := true } := by
  have hEffective : b.dir ≠ d.dir := fun hSame => hChanged (congrArg field (enableEffect_same d b hSame))
  exact ⟨fun hDir => hEffective (hDir.symm.trans (enableEffect_dir d b)), enableEffect_effective d b hEffective⟩

/-- A tick changes `DIR` only by stopping the motor. -/
theorem tickEffect_dir_of_changed {th : Word} {b : Block} (hChanged : (tickEffect th b).dir ≠ b.dir) :
    (tickEffect th b).dir = .disabled := by
  rw [tickEffect_dir] at hChanged ⊢
  split
  · rfl
  · next hNotStopped => exact absurd (if_neg hNotStopped) hChanged

/-! ## The writers of each field (R33) -/

section Writers

variable {i : Instr} {s t : State} (hWrite : RecordWrite s t i)

include hWrite

theorem RecordWrite.dir_writers (hChanged : t.blk.dir ≠ s.blk.dir) :
    i = .enableO ∨ i = .enableC ∨ i = .disable
      ∨ (i = .tick ∧ t.blk.dir = .disabled) ∨ (i = .reset ∧ t.blk.dir = .disabled) := by
  cases hWrite with
  | enable d =>
    rcases enableInstr_cases d with hOpening | hClosing
    · exact .inl hOpening
    · exact .inr (.inl hClosing)
  | disable => exact .inr (.inr (.inl rfl))
  | edge hBlk => exact absurd (hBlk ▸ edgeEffect_dir s.blk) hChanged
  | tick hBlk =>
    rw [hBlk] at hChanged ⊢
    exact .inr (.inr (.inr (.inl ⟨rfl, tickEffect_dir_of_changed hChanged⟩)))
  | reset hBlk => exact .inr (.inr (.inr (.inr ⟨rfl, hBlk ▸ Block.reset_dir s.sense⟩)))
  | zpos hBlk | posmax _ hBlk | postgt _ hBlk | kept _ hBlk => exact absurd (hBlk ▸ rfl) hChanged

theorem RecordWrite.pos_writers (hChanged : t.blk.pos ≠ s.blk.pos) :
    (i = .zpos ∧ t.blk.pos = 0) ∨ (i = .edge ∧ (t.blk.pos = s.blk.pos + 1 ∨ t.blk.pos = s.blk.pos - 1))
      ∨ (i = .reset ∧ t.blk.pos = 0) := by
  cases hWrite with
  | zpos hBlk => exact .inl ⟨rfl, hBlk ▸ zeroPos_pos s.blk⟩
  | edge hBlk =>
    rw [hBlk] at hChanged ⊢
    cases hDir : s.blk.dir with
    | disabled => exact absurd (edgeEffect_pos_of_disabled s.blk hDir) hChanged
    | opening => exact .inr (.inl ⟨rfl, .inl (edgeEffect_pos_of_opening s.blk hDir)⟩)
    | closing => exact .inr (.inl ⟨rfl, .inr (edgeEffect_pos_of_closing s.blk hDir)⟩)
  | reset hBlk => exact .inr (.inr ⟨rfl, hBlk ▸ Block.reset_pos s.sense⟩)
  | enable d hBlk => exact absurd (hBlk ▸ enableEffect_pos d s.blk) hChanged
  | tick hBlk => exact absurd (hBlk ▸ tickEffect_pos _ s.blk) hChanged
  | disable hBlk | posmax _ hBlk | postgt _ hBlk | kept _ hBlk => exact absurd (hBlk ▸ rfl) hChanged

theorem RecordWrite.posmax_writers (hChanged : t.blk.posmax ≠ s.blk.posmax) :
    (∃ v, i = .wrPosmax v ∧ t.blk.posmax = v) ∨ (i = .reset ∧ t.blk.posmax = 0) := by
  cases hWrite with
  | posmax v hBlk => exact .inl ⟨v, rfl, hBlk ▸ rfl⟩
  | reset hBlk => exact .inr ⟨rfl, hBlk ▸ Block.reset_posmax s.sense⟩
  | enable d hBlk => exact absurd (hBlk ▸ enableEffect_posmax d s.blk) hChanged
  | edge hBlk => exact absurd (hBlk ▸ edgeEffect_posmax s.blk) hChanged
  | tick hBlk => exact absurd (hBlk ▸ tickEffect_posmax _ s.blk) hChanged
  | disable hBlk | zpos hBlk | postgt _ hBlk | kept _ hBlk => exact absurd (hBlk ▸ rfl) hChanged

theorem RecordWrite.postgt_writers (hChanged : t.blk.postgt ≠ s.blk.postgt) :
    (∃ v, i = .wrPostgt v ∧ t.blk.postgt = v) ∨ (i = .reset ∧ t.blk.postgt = 0) := by
  cases hWrite with
  | postgt v hBlk => exact .inl ⟨v, rfl, hBlk ▸ rfl⟩
  | reset hBlk => exact .inr ⟨rfl, hBlk ▸ Block.reset_postgt s.sense⟩
  | enable d hBlk => exact absurd (hBlk ▸ enableEffect_postgt d s.blk) hChanged
  | edge hBlk => exact absurd (hBlk ▸ edgeEffect_postgt s.blk) hChanged
  | tick hBlk => exact absurd (hBlk ▸ tickEffect_postgt _ s.blk) hChanged
  | disable hBlk | zpos hBlk | posmax _ hBlk | kept _ hBlk => exact absurd (hBlk ▸ rfl) hChanged

theorem RecordWrite.tot_writers (hChanged : t.blk.tot ≠ s.blk.tot) :
    ((i = .enableO ∨ i = .enableC) ∧ t.blk.dir ≠ s.blk.dir ∧ t.blk.tot = 0)
      ∨ (i = .edge ∧ t.blk.tot = 0) ∨ (i = .tick ∧ t.blk.tot = s.blk.tot + 1) ∨ (i = .reset ∧ t.blk.tot = 0) := by
  cases hWrite with
  | enable d hBlk =>
    rw [hBlk] at hChanged ⊢
    obtain ⟨hDir, hFresh⟩ := enableEffect_of_changed Block.tot hChanged
    exact .inl ⟨enableInstr_cases d, hDir, hFresh ▸ rfl⟩
  | edge hBlk => exact .inr (.inl ⟨rfl, hBlk ▸ edgeEffect_tot s.blk⟩)
  | tick hBlk => exact .inr (.inr (.inl ⟨rfl, hBlk ▸ tickEffect_tot _ s.blk⟩))
  | reset hBlk => exact .inr (.inr (.inr ⟨rfl, hBlk ▸ Block.reset_tot s.sense⟩))
  | disable hBlk | zpos hBlk | posmax _ hBlk | postgt _ hBlk | kept _ hBlk => exact absurd (hBlk ▸ rfl) hChanged

theorem RecordWrite.runt_writers (hChanged : t.blk.runt ≠ s.blk.runt) :
    ((i = .enableO ∨ i = .enableC) ∧ t.blk.dir ≠ s.blk.dir ∧ t.blk.runt = 0)
      ∨ (i = .tick ∧ t.blk.runt = s.blk.runt + 1) ∨ (i = .reset ∧ t.blk.runt = 0) := by
  cases hWrite with
  | enable d hBlk =>
    rw [hBlk] at hChanged ⊢
    obtain ⟨hDir, hFresh⟩ := enableEffect_of_changed Block.runt hChanged
    exact .inl ⟨enableInstr_cases d, hDir, hFresh ▸ rfl⟩
  | tick hBlk =>
    rw [hBlk, tickEffect_runt] at hChanged ⊢
    split
    · exact .inr (.inl ⟨rfl, rfl⟩)
    · next hNotCounted => exact absurd (if_neg hNotCounted) hChanged
  | reset hBlk => exact .inr (.inr ⟨rfl, hBlk ▸ Block.reset_runt s.sense⟩)
  | edge hBlk => exact absurd (hBlk ▸ edgeEffect_runt s.blk) hChanged
  | disable hBlk | zpos hBlk | posmax _ hBlk | postgt _ hBlk | kept _ hBlk => exact absurd (hBlk ▸ rfl) hChanged

theorem RecordWrite.ticken_writers (hChanged : t.blk.ticken ≠ s.blk.ticken) :
    ((i = .enableO ∨ i = .enableC) ∧ t.blk.dir ≠ s.blk.dir ∧ t.blk.ticken = true)
      ∨ (i = .tick ∧ t.ret = .k t.blk.ticken) ∨ (i = .reset ∧ t.blk.ticken = false) := by
  cases hWrite with
  | enable d hBlk =>
    rw [hBlk] at hChanged ⊢
    obtain ⟨hDir, hFresh⟩ := enableEffect_of_changed Block.ticken hChanged
    exact .inl ⟨enableInstr_cases d, hDir, hFresh ▸ rfl⟩
  | tick _ hRet => exact .inr (.inl ⟨rfl, hRet⟩)
  | reset hBlk => exact .inr (.inr ⟨rfl, hBlk ▸ Block.reset_ticken s.sense⟩)
  | edge hBlk => exact absurd (hBlk ▸ edgeEffect_ticken s.blk) hChanged
  | disable hBlk | zpos hBlk | posmax _ hBlk | postgt _ hBlk | kept _ hBlk => exact absurd (hBlk ▸ rfl) hChanged

theorem RecordWrite.senseQ_writers (hChanged : t.blk.senseQ ≠ s.blk.senseQ) :
    i = .reset ∧ t.blk.senseQ = s.sense := by
  cases hWrite with
  | reset hBlk => exact ⟨rfl, hBlk ▸ Block.reset_senseQ s.sense⟩
  | enable d hBlk => exact absurd (hBlk ▸ enableEffect_senseQ d s.blk) hChanged
  | edge hBlk => exact absurd (hBlk ▸ edgeEffect_senseQ s.blk) hChanged
  | tick hBlk => exact absurd (hBlk ▸ tickEffect_senseQ _ s.blk) hChanged
  | disable hBlk | zpos hBlk | posmax _ hBlk | postgt _ hBlk | kept _ hBlk => exact absurd (hBlk ▸ rfl) hChanged

end Writers

/-- A sample leaves the pin's level in `SENSE_Q`: it was there already, or the sampler stores it (R108). -/
theorem senseQ_of_step_sample {s t : State} {rest : List Arrival} (hArrivals : s.arrivals = .sample :: rest)
    (h : step s = .next t) : t.blk.senseQ = s.sense := by
  rw [step_cons s .sample rest hArrivals, performArrival] at h
  by_cases hSame : s.sense = s.blk.senseQ
  · cases (samplePin_unchanged (s.withArrivals rest) hSame).symm.trans h
    exact hSame.symm
  · cases (samplePin_changed (s.withArrivals rest) hSame).symm.trans h
    rfl

/-- Settles O44: the writers of each field by the cases of what an operation writes, and the sampler. -/
theorem writersOfEachField : Obligations.WritersOfEachField := by
  refine ⟨fun i s t h => ?_, fun s t rest => senseQ_of_step_sample⟩
  have hWrite := exec_recordWrite h
  exact ⟨hWrite.dir_writers, hWrite.pos_writers, hWrite.posmax_writers, hWrite.postgt_writers, hWrite.tot_writers,
    hWrite.runt_writers, hWrite.ticken_writers, hWrite.senseQ_writers⟩

/-! ## What is outside the record -/

theorem exec_outside_record {i : Instr} {s t : State} (h : exec i s = .next t) :
    t.sense = s.sense ∧ t.host = s.host ∧ t.par = s.par ∧ t.arrivals = s.arrivals := by
  obtain ⟨b, r, hFrame⟩ := exec_frame i s
  cases hFrame.symm.trans h
  exact ⟨rfl, rfl, rfl, rfl⟩

theorem exec_par {i : Instr} {s t : State} (h : exec i s = .next t) : t.par = s.par := by
  obtain ⟨-, -, hPar, -⟩ := exec_outside_record h
  exact hPar

/-! ## From operations to steps -/

section StepKeeps

variable {P : Params → Block → Prop} (hExec : ∀ i s t, P s.par s.blk → exec i s = .next t → P t.par t.blk)
  (hSense : ∀ par b level, P par b → P par { b with senseQ := level })

include hExec hSense

theorem performArrival_keeps {a : Arrival} {s t : State} (hs : P s.par s.blk) (h : performArrival a s = .next t) :
    P t.par t.blk := by
  rcases performArrival_cases a s with hIs | ⟨i, l, hIs⟩ | ⟨l, -, hIs⟩ | ⟨-, hIs⟩ | ⟨c, -, hIs⟩
    | ⟨i, b, r, -, -, hLine, hIs⟩ | ⟨-, hIs⟩
  · cases hIs.symm.trans h
    exact hs
  · exact hExec i (s.withArrivals l) t hs (hIs.symm.trans h)
  · cases hIs.symm.trans h
    exact hs
  · exact hExec .edge _ t (hSense s.par s.blk s.sense hs) (hIs.symm.trans h)
  · cases hIs.symm.trans h
    exact hs
  · cases hIs.symm.trans h
    exact hExec i s (s.complete b r) hs hLine
  · exact hExec .reset { s with host := .idle } t hs (hIs.symm.trans h)

/-- What every operation keeps of the parameters and the record, and the sampler's store of `SENSE_Q` too, every step
keeps: no other arrival writes either. -/
theorem step_keeps {s t : State} (hs : P s.par s.blk) (h : step s = .next t) : P t.par t.blk := by
  cases hArrivals : s.arrivals with
  | nil =>
    cases (step_idle s hArrivals).symm.trans h
    exact hs
  | cons a rest =>
    rw [step_cons s a rest hArrivals] at h
    exact performArrival_keeps hExec hSense (s := s.withArrivals rest) hs h

end StepKeeps

theorem step_par {s t : State} (h : step s = .next t) : t.par = s.par :=
  step_keeps (P := fun par _ => par = s.par) (fun _ _ _ hPar hExec => (exec_par hExec).trans hPar)
    (fun _ _ _ hPar => hPar) rfl h

/-- Settles O11: an operation by its frame; a step because no arrival writes the parameters. -/
theorem operationsTouchOnlyTheBlock : Obligations.OperationsTouchOnlyTheBlock :=
  ⟨fun _ _ _ => exec_outside_record, fun _ _ => step_par⟩

/-! ## The invariant of the reachable states (R36, R132) -/

/-- `Safe` as a predicate of the parameters and the record, the only parts of a state it reads. -/
structure SafeRecord (par : Params) (b : Block) : Prop where
  valid : par.Valid
  ticken : b.dir ≠ .disabled → b.ticken = true
  tot : b.dir ≠ .disabled → b.tot.toNat ≤ par.stallThreshold.toNat

theorem safe_iff_safeRecord (s : State) : Safe s ↔ SafeRecord s.par s.blk :=
  ⟨fun ⟨hValid, hTicken, hTot⟩ => ⟨hValid, hTicken, hTot⟩, fun h => ⟨h.valid, h.ticken, h.tot⟩⟩

theorem safeRecord_of_off {par : Params} {b : Block} (hValid : par.Valid) (hOff : b.dir = .disabled) :
    SafeRecord par b :=
  ⟨hValid, fun hOn => absurd hOff hOn, fun hOn => absurd hOff hOn⟩

theorem SafeRecord.enableEffect {par : Params} {b : Block} (h : SafeRecord par b) (d : Drive) :
    SafeRecord par (enableEffect d b) := by
  by_cases hSame : b.dir = d.dir
  · rwa [enableEffect_same d b hSame]
  · rw [enableEffect_effective d b hSame]
    exact ⟨h.valid, fun _ => rfl, fun _ => Nat.zero_le _⟩

theorem SafeRecord.edgeEffect {par : Params} {b : Block} (h : SafeRecord par b) : SafeRecord par (edgeEffect b) where
  valid := h.valid
  ticken hOn := (edgeEffect_ticken b).trans (h.ticken (edgeEffect_dir b ▸ hOn))
  tot _ := by
    rw [edgeEffect_tot]
    exact Nat.zero_le _

/-- After a tick the motor drives only if the tick did not stall, and then the new count is within the threshold. -/
theorem safeRecord_tickEffect {par : Params} (hValid : par.Valid) (b : Block) :
    SafeRecord par (tickEffect par.stallThreshold b) where
  valid := hValid
  ticken hOn := (tickEffect_ticken _ b).trans ((running_iff _).mpr hOn)
  tot hOn := by
    rw [tickEffect_tot, add_one_toNat]
    exact not_lt.mp fun hStall => hOn (tickEffect_dir_of_stalled _ b hStall)

theorem exec_keeps_safeRecord (i : Instr) (s t : State) (hSafe : SafeRecord s.par s.blk) (h : exec i s = .next t) :
    SafeRecord t.par t.blk := by
  rw [exec_par h]
  cases exec_recordWrite h with
  | enable d hBlk => exact hBlk ▸ hSafe.enableEffect d
  | disable hBlk => exact hBlk ▸ safeRecord_of_off hSafe.valid (disableEffect_dir s.blk)
  | edge hBlk => exact hBlk ▸ hSafe.edgeEffect
  | tick hBlk => exact hBlk ▸ safeRecord_tickEffect hSafe.valid s.blk
  | reset hBlk => exact hBlk ▸ safeRecord_of_off hSafe.valid (Block.reset_dir s.sense)
  | zpos hBlk | posmax _ hBlk | postgt _ hBlk => exact hBlk ▸ ⟨hSafe.valid, hSafe.ticken, hSafe.tot⟩
  | kept _ hBlk => exact hBlk ▸ hSafe

theorem exec_keeps_safe {i : Instr} {s t : State} (hSafe : Safe s) (h : exec i s = .next t) : Safe t :=
  (safe_iff_safeRecord t).mpr (exec_keeps_safeRecord i s t ((safe_iff_safeRecord s).mp hSafe) h)

/-- Settles O42: every operation keeps the invariant, by the cases of what it writes, and so every step does. -/
theorem stepKeepsSafe : Obligations.StepKeepsSafe := by
  intro s t hSafe h
  have hSense (par : Params) (b : Block) (level : Bool) (hb : SafeRecord par b) :
      SafeRecord par { b with senseQ := level } := ⟨hb.valid, hb.ticken, hb.tot⟩
  exact (safe_iff_safeRecord t).mpr
    (step_keeps exec_keeps_safeRecord hSense ((safe_iff_safeRecord s).mp hSafe) h)

/-- Settles O43: the motor is off after reset, and the free parameters are inside R8. -/
theorem resetStateIsSafe : Obligations.ResetStateIsSafe :=
  (safe_iff_safeRecord State.reset).mpr (safeRecord_of_off Config.params_valid (Block.reset_dir _))

end Sys2Proof.Machine
end

section
/-!
The step and the word it takes from the schedule (R9, R70), power-up (R211), and `DISABLE` (R93).
-/

namespace Sys2Proof.Machine

/-! ## The step runs the decoded word -/

/-- Settles O12: the first case of the step. -/
theorem emptyScheduleKeepsState : Obligations.EmptyScheduleKeepsState := step_idle

/-- The one operation an event vector decodes to is the only operation of its instant. -/
theorem instantOps_of_decodeWord_ev {e : EvVec} {i : Instr} (h : decodeWord (.ev e) = .ok i) :
    instantOps e none = [i] := by
  have hOps : instantOps e none = decodeEv e := by
    unfold instantOps
    split
    · next hReset => exact (decodeEv_reset e hReset).symm
    · exact List.append_nil _
  rw [decodeWord] at h
  split at h
  · cases h
  · next hOne =>
    cases h
    exact hOps.trans hOne
  · cases h

/-- An arrival that carries a word of one operation is performed as that operation. -/
theorem performArrival_arrivalOf {w : OpWord} {i : Instr} (h : decodeWord w = .ok i) (s : State) :
    performArrival (arrivalOf w) s = exec i s := by
  cases w with
  | bus t =>
    cases h
    exact performInstant_bus t s
  | ev e =>
    obtain ⟨e', b', hNothingLeft, hHead⟩ := performInstant_head (instantOps_of_decodeWord_ev h)
    obtain ⟨rfl, rfl⟩ := (instantOps_eq_nil_iff e' b').mp hNothingLeft
    exact hHead s

/-- Settles O6: the step takes the arrival of the word, which is performed as its operation. -/
theorem stepRunsDecodedOperation : Obligations.StepRunsDecodedOperation := by
  intro s w i rest hArrivals hDecode
  rw [step_cons s _ rest hArrivals, performArrival_arrivalOf hDecode]

/-- A numbered word that is one operation arrives as the word of its format. -/
theorem decodeTableWord_arrival {nbits w : Nat} {i : Instr} (h : decodeTableWord nbits w = some i) :
    ∃ x, decodeWord x = .ok i ∧ arrivalOfNumbered nbits w = arrivalOf x := by
  have hNumbered : decodeNumbered nbits w = .ok i := by
    unfold decodeTableWord at h
    split at h
    · next hOk =>
      cases h
      exact hOk
    · cases h
  unfold decodeNumbered at hNumbered
  split at hNumbered
  · next x hWord =>
    refine ⟨x, hNumbered, ?_⟩
    unfold opWordOf at hWord
    unfold arrivalOfNumbered
    split at hWord
    · cases hWord
    split at hWord
    · next hEvent =>
      rw [if_pos hEvent]
      split at hWord <;> cases hWord
      rfl
    · next hBus =>
      rw [if_neg hBus]
      split at hWord
      · split at hWord <;> cases hWord
        rfl
      · cases hWord
  · cases hNumbered

/-- Settles O7: the placed word is the oldest arrival, and without it the schedule is as it was. -/
theorem placedWordRunsNext : Obligations.PlacedWordRunsNext := by
  intro s nbits w i hWord
  obtain ⟨x, hDecode, hArrival⟩ := decodeTableWord_arrival hWord
  rw [State.withFetchWord, hArrival, stepRunsDecodedOperation _ x i s.arrivals rfl hDecode,
    State.withArrivals_withArrivals, State.withArrivals_self]

/-! ## Power-up (R211) -/

/-- Settles O15: the arrival of power-up is `RESET` performed with the foreground idle. -/
theorem powerUpResetsBlockAndHost : Obligations.PowerUpResetsBlockAndHost := by
  intro s rest hArrivals
  have hReset := exec_reset { s.withArrivals rest with host := .idle }
  exact ⟨_, (step_cons s .powerUp rest hArrivals).trans hReset, rfl, rfl, rfl, rfl, rfl⟩

/-! ## `DISABLE` (R93) -/

theorem disableEffect_of_disabled (b : Block) (h : b.dir = .disabled) : disableEffect b = b := by
  rw [disableEffect, ← h]

/-- Settles O21: the outputs follow from `DIR`, and a second `DISABLE` finds it written already. -/
theorem disableWritesDirectionAlone : Obligations.DisableWritesDirectionAlone := by
  refine ⟨rfl, fun s => ⟨_, exec_disable s, rfl, ?_⟩⟩
  have hOff := disableEffect_dir s.blk
  exact ⟨drvOpen_of_disabled _ hOff, drvClose_of_disabled _ hOff, active_of_disabled _ hOff,
    exec_disable _, disableEffect_of_disabled s.blk⟩

end Sys2Proof.Machine
end

section
/-!
Three fields that steer nothing: `RUNT` (42_timeout_supervisor.md, "What TICK does not do"), `TICKEN` and `SENSE_Q`
(10_state.md, section 2). Every operation takes each of the three to a new value by itself, and the rest of the state
does not depend on them, but for the results of `RD.RUNT` and `RD.CSR`.
-/

namespace Sys2Proof.Machine

/-- The record with its three bystander fields replaced. -/
def Block.withBystanders (b : Block) (r : Word) (k l : Bool) : Block :=
  { b with runt := r, ticken := k, senseQ := l }

/-- The operation `i` leaves the record `b` but for the bystanders, each of which it takes to a new value of its own,
and returns `result`, which shows `RUNT` to `RD.RUNT` alone and `TICKEN` to `RD.CSR` alone. -/
structure ActsFieldwise (i : Instr) (s : State) (b : Block) (newRunt : Word → Word) (newTicken newSenseQ : Bool → Bool)
    (result : Word → Bool → Ret) : Prop where
  exec_eq : ∀ r k l, exec i { s with blk := s.blk.withBystanders r k l }
    = .next { s with blk := b.withBystanders (newRunt r) (newTicken k) (newSenseQ l), ret := result r k }
  runt_unread : i ≠ .rdRunt → ∀ r r' k, result r k = result r' k
  ticken_unread : i ≠ .rdCsr → ∀ r k k', result r k = result r k'
  ticken_of_tick : i = .tick → ∀ k k', newTicken k = newTicken k'
  senseQ_kept : i ≠ .reset → ∀ l, newSenseQ l = l

/-- An operation that leaves the three bystanders and returns a result they do not enter. -/
theorem ActsFieldwise.of_kept {i : Instr} {s : State} (b : Block) (ret : Ret) (hTick : i ≠ .tick)
    (hExec : ∀ r k l, exec i { s with blk := s.blk.withBystanders r k l }
      = .next { s with blk := b.withBystanders r k l, ret := ret }) :
    ActsFieldwise i s b id id id fun _ _ => ret :=
  ⟨hExec, fun _ _ _ _ => rfl, fun _ _ _ _ => rfl, fun hi => absurd hi hTick, fun _ _ => rfl⟩

theorem edgeEffect_withBystanders (b : Block) (r : Word) (k l : Bool) :
    edgeEffect (b.withBystanders r k l) = (edgeEffect b).withBystanders r k l := by
  rcases b with ⟨dir, _, _, _, _, _, _, _⟩
  cases dir <;> rfl

theorem tickEffect_dir_withBystanders (th : Word) (b : Block) (r : Word) (k l : Bool) :
    (tickEffect th (b.withBystanders r k l)).dir = (tickEffect th b).dir := by
  rw [tickEffect_dir, tickEffect_dir]
  rfl

theorem tickEffect_running_withBystanders (th : Word) (b : Block) (r : Word) (k l : Bool) :
    (tickEffect th (b.withBystanders r k l)).running = (tickEffect th b).running := by
  rw [Block.running, tickEffect_dir_withBystanders, Block.running]

/-- Whether a tick counts in `RUNT` does not depend on what `RUNT` holds. -/
def tickedRunt (th : Word) (b : Block) (r : Word) : Word :=
  if b.dir ≠ .disabled ∧ (b.tot.toNat + 1) % 2 ^ 16 ≤ th.toNat then r + 1 else r

/-- The tick overwrites `TICKEN`, counts in `RUNT` or not, and leaves `SENSE_Q`. -/
theorem tickEffect_withBystanders (th : Word) (b : Block) (r : Word) (k l : Bool) :
    tickEffect th (b.withBystanders r k l)
      = (tickEffect th b).withBystanders (tickedRunt th b r) (tickEffect th b).running l := by
  have hRunt : (tickEffect th (b.withBystanders r k l)).runt = tickedRunt th b r := tickEffect_runt th _
  rw [← hRunt, tickEffect_eq th (b.withBystanders r k l), tickEffect_dir_withBystanders,
    tickEffect_running_withBystanders, Block.withBystanders, Block.withBystanders, tickEffect_pos, tickEffect_posmax,
    tickEffect_postgt, tickEffect_tot]

theorem tick_actsFieldwise (s : State) :
    ActsFieldwise .tick s (tickEffect s.par.stallThreshold s.blk) (tickedRunt s.par.stallThreshold s.blk)
      (fun _ => (tickEffect s.par.stallThreshold s.blk).running) id
      (fun _ _ => .k (tickEffect s.par.stallThreshold s.blk).running) where
  exec_eq r k l := by
    rw [exec_tick, tickEffect_withBystanders]
    rfl
  runt_unread _ _ _ _ := rfl
  ticken_unread _ _ _ _ := rfl
  ticken_of_tick _ _ _ := rfl
  senseQ_kept _ _ := rfl

/-- An enable reads none of the bystanders: in the direction set it keeps them, in any other it starts both `RUNT` and
`TICKEN` afresh (R90). -/
theorem enableInstr_actsFieldwise (d : Drive) (s : State) :
    ∃ b f g h result, ActsFieldwise (enableInstr d) s b f g h result := by
  have hTick : enableInstr d ≠ .tick := by cases d <;> decide
  by_cases hSame : s.blk.dir = d.dir
  · exact ⟨_, _, _, _, _, .of_kept s.blk .nothing hTick fun r k l =>
      exec_enableInstr_same d { s with blk := s.blk.withBystanders r k l } hSame⟩
  · refine ⟨{ s.blk with dir := d.dir, tot := 0 }, fun _ => 0, fun _ => true, id, fun _ _ => .nothing, ?_⟩
    exact ⟨fun r k l => exec_enableInstr_effective d { s with blk := s.blk.withBystanders r k l } hSame,
      fun _ _ _ _ => rfl, fun _ _ _ _ => rfl, fun hi => absurd hi hTick, fun _ _ => rfl⟩

theorem exec_actsFieldwise (i : Instr) (s : State) : ∃ b f g h result, ActsFieldwise i s b f g h result := by
  cases i with
  | enableO => exact enableInstr_actsFieldwise .opening s
  | enableC => exact enableInstr_actsFieldwise .closing s
  | tick => exact ⟨_, _, _, _, _, tick_actsFieldwise s⟩
  | reset =>
    refine ⟨Block.reset s.sense, fun _ => 0, fun _ => false, fun _ => s.sense, fun _ _ => .nothing, ?_⟩
    exact ⟨fun _ _ _ => rfl, fun _ _ _ _ => rfl, fun _ _ _ _ => rfl, nofun, fun hi => absurd rfl hi⟩
  | rdCsr =>
    refine ⟨s.blk, id, id, id, fun r k => .q (s.blk.withBystanders r k false).status, ?_⟩
    exact ⟨fun _ _ _ => rfl, fun _ _ _ _ => rfl, fun hi => absurd rfl hi, nofun, fun _ _ => rfl⟩
  | rdRunt =>
    refine ⟨s.blk, id, id, id, fun r _ => .q r, ?_⟩
    exact ⟨fun _ _ _ => rfl, fun hi => absurd rfl hi, fun _ _ _ _ => rfl, nofun, fun _ _ => rfl⟩
  | edge =>
    refine ⟨_, _, _, _, _, .of_kept (edgeEffect s.blk) .nothing (by decide) fun r k l => ?_⟩
    rw [exec_edge, edgeEffect_withBystanders]
    rfl
  | disable => exact ⟨_, _, _, _, _, .of_kept (disableEffect s.blk) .nothing (by decide) fun _ _ _ => rfl⟩
  | zpos => exact ⟨_, _, _, _, _, .of_kept (zeroPos s.blk) .nothing (by decide) fun _ _ _ => rfl⟩
  | wrPosmax v => exact ⟨_, _, _, _, _, .of_kept { s.blk with posmax := v } .nothing nofun fun _ _ _ => rfl⟩
  | wrPostgt v => exact ⟨_, _, _, _, _, .of_kept { s.blk with postgt := v } .nothing nofun fun _ _ _ => rfl⟩
  | rdPos => exact ⟨_, _, _, _, _, .of_kept s.blk (.q s.blk.pos) nofun fun _ _ _ => rfl⟩
  | rdPosmax => exact ⟨_, _, _, _, _, .of_kept s.blk (.q s.blk.posmax) nofun fun _ _ _ => rfl⟩
  | rdPostgt => exact ⟨_, _, _, _, _, .of_kept s.blk (.q s.blk.postgt) nofun fun _ _ _ => rfl⟩
  | rdTot => exact ⟨_, _, _, _, _, .of_kept s.blk (.q s.blk.tot) nofun fun _ _ _ => rfl⟩
  | _ => exact ⟨_, _, _, _, _, .of_kept s.blk _ nofun fun _ _ _ => rfl⟩

/-- Settles O39: the new `RUNT` is the only field that depends on the old one, and only `RD.RUNT` returns it. -/
theorem runTimeCountSteersNothing : Obligations.RunTimeCountSteersNothing := by
  intro i s t r hNotRead h
  obtain ⟨b, newRunt, newTicken, newSenseQ, result, hActs⟩ := exec_actsFieldwise i s
  cases (hActs.exec_eq s.blk.runt s.blk.ticken s.blk.senseQ).symm.trans h
  refine ⟨_, hActs.exec_eq r s.blk.ticken s.blk.senseQ, ?_⟩
  rw [hActs.runt_unread hNotRead r s.blk.runt]
  rfl

/-- Settles O45: the new `SENSE_Q` is the only field that depends on the old one, and only `RESET` does not keep it. -/
theorem senseLatchSteersNothing : Obligations.SenseLatchSteersNothing := by
  intro i s t l h
  obtain ⟨b, newRunt, newTicken, newSenseQ, result, hActs⟩ := exec_actsFieldwise i s
  cases (hActs.exec_eq s.blk.runt s.blk.ticken s.blk.senseQ).symm.trans h
  exact ⟨_, hActs.exec_eq s.blk.runt s.blk.ticken l, rfl, fun hNoReset => hActs.senseQ_kept hNoReset l⟩

/-- Settles O46: the new `TICKEN` is the only field that depends on the old one, a tick's does not, and only `RD.CSR`
shows it. -/
theorem tickRequestGatesNothing : Obligations.TickRequestGatesNothing := by
  intro i s t k hNotRead h
  obtain ⟨b, newRunt, newTicken, newSenseQ, result, hActs⟩ := exec_actsFieldwise i s
  cases (hActs.exec_eq s.blk.runt s.blk.ticken s.blk.senseQ).symm.trans h
  refine ⟨_, hActs.exec_eq s.blk.runt k s.blk.senseQ, ?_, fun hTick => ?_⟩
  · rw [hActs.ticken_unread hNotRead _ k s.blk.ticken]
    rfl
  · rw [hActs.ticken_unread hNotRead _ k s.blk.ticken, hActs.ticken_of_tick hTick k s.blk.ticken]

end Sys2Proof.Machine
end

section
/-!
Runs of edges and ticks: the order of two operations (vectors T20 and T21; 40_motor_driver.md, section 2), edges after
a stop (70_reset_and_hazards.md, section 3), the overshoot of a drive (R123), and the bound on driving without edges
(R131, R135).
-/

namespace Sys2Proof.Machine

theorem runOps_pair {i j : Instr} {s t : State} (h : exec i s = .next t) : runOps [i, j] s = exec j t :=
  (runOps_cons i [j] s t h).trans (runOps_single j t)

theorem no_arrival_of_uncalibrated_or_not_arrived {b : Block} (h : b.posmax = 0 ∨ b.arrived = false) :
    ¬ (b.posmax ≠ 0 ∧ b.arrived = true) := by
  rintro ⟨hCalibrated, hArrived⟩
  rcases h with hZero | hNotArrived
  · exact hCalibrated hZero
  · exact ne_true_of_eq_false hNotArrived hArrived

/-! ## The order of two operations -/

/-- After an edge the count is 1, so the tick does not stall, and the edge was counted. -/
theorem edge_then_tick {th : Word} {b : Block} (hDir : b.dir = .opening) (hUncalibrated : b.posmax = 0)
    (hThreshold : 1 ≤ th.toNat) :
    (tickEffect th (edgeEffect b)).dir = .opening ∧ (tickEffect th (edgeEffect b)).pos = b.pos + 1 := by
  have hNoStall : ((edgeEffect b).tot.toNat + 1) % 2 ^ 16 ≤ th.toNat := by
    rw [edgeEffect_tot]
    exact hThreshold
  have hNoArrival := no_arrival_of_uncalibrated_or_not_arrived (.inl ((edgeEffect_posmax b).trans hUncalibrated))
  rw [tickEffect_dir_of_not_stopped th _ hNoStall hNoArrival, edgeEffect_dir, tickEffect_pos]
  exact ⟨hDir, edgeEffect_pos_of_opening b hDir⟩

/-- A tick that stalls leaves the motor off, so the edge after it is lost. -/
theorem tick_then_edge_of_stalled {th : Word} {b : Block} (hStall : th.toNat < (b.tot.toNat + 1) % 2 ^ 16) :
    (edgeEffect (tickEffect th b)).dir = .disabled ∧ (edgeEffect (tickEffect th b)).pos = b.pos := by
  have hOff := tickEffect_dir_of_stalled th b hStall
  rw [edgeEffect_dir, edgeEffect_pos_of_disabled _ hOff, tickEffect_pos]
  exact ⟨hOff, rfl⟩

/-- Settles O9: the edge first clears the count that the tick compares; the tick first finds it above the threshold. -/
theorem edgeTickOrderIsObservable : Obligations.EdgeTickOrderIsObservable := by
  intro s hSafe hDir hUncalibrated hAtThreshold hThreshold
  obtain ⟨⟨hBelowMax, -⟩, -, -⟩ := hSafe
  have hStall : s.par.stallThreshold.toNat < (s.blk.tot.toNat + 1) % 2 ^ 16 := by
    rw [hAtThreshold]
    omega
  obtain ⟨hStillOn, hCounted⟩ := edge_then_tick hDir hUncalibrated hThreshold
  obtain ⟨hOff, hLost⟩ := tick_then_edge_of_stalled hStall
  exact ⟨_, _, (runOps_pair (exec_edge s)).trans (exec_tick _), (runOps_pair (exec_tick s)).trans (exec_edge _),
    hStillOn, hCounted, hOff, hLost⟩

/-- Settles O22: `DISABLE` first makes the tick one with the motor off; the tick first is one of the four cases of
R115. -/
theorem disableAndTickInEitherOrder : Obligations.DisableAndTickInEitherOrder := by
  rintro s n rfl
  have hDisableFirst : tickEffect s.par.stallThreshold (disableEffect s.blk)
      = { disableEffect s.blk with tot := s.blk.tot + 1, ticken := false } :=
    tickEffect_of_disabled _ _ (disableEffect_dir s.blk)
  refine ⟨_, _, (runOps_pair (exec_tick s)).trans (exec_disable _), (runOps_pair (exec_disable s)).trans (exec_tick _),
    rfl, tickEffect_dir_of_disabled _ _ (disableEffect_dir s.blk), ?_⟩
  simp only [State.complete_blk, State.complete_par, hDisableFirst]
  refine ⟨?same, ?arrived, ?driving⟩
  case same =>
    rintro (hOff | hStall)
    · rw [tickEffect_of_disabled _ _ hOff]
      rfl
    · rw [tickEffect_of_stalled _ _ hStall]
      rfl
  case arrived =>
    intro hDriving hNoStall hCalibrated hArrived
    rw [tickEffect_of_arrived _ _ hDriving hNoStall hCalibrated hArrived]
    rfl
  case driving =>
    intro hDriving hNoStall hShort
    rw [tickEffect_of_still_driving _ _ hDriving hNoStall (no_arrival_of_uncalibrated_or_not_arrived hShort)]
    rfl

/-! ## Runs of edges, and the tick after them -/

/-- Settles O29: with the motor off an edge clears `TOT` alone, and so does each edge after it. -/
theorem edgesWhileDisabledAreLost : Obligations.EdgesWhileDisabledAreLost := by
  intro n
  induction n with
  | zero =>
    intro s hOff
    rw [Nat.zero_add, List.replicate_one, runOps_single, exec_edge, edgeEffect_disabled s.blk hOff]
    rfl
  | succ n ih =>
    intro s hOff
    rw [List.replicate_succ, runOps_cons .edge _ s _ (exec_edge s), ih _ ((edgeEffect_dir s.blk).trans hOff),
      State.complete_blk, edgeEffect_disabled s.blk hOff]
    rfl

/-- A run of edges writes `POS`, `TOT` and the result alone. -/
theorem runOps_edges_frame {n : Nat} {s t : State} (h : runOps (List.replicate n .edge) s = .next t) :
    t = { s with blk := { s.blk with pos := t.blk.pos, tot := t.blk.tot }, ret := t.ret } := by
  induction n generalizing s with
  | zero =>
    cases h
    rfl
  | succ n ih =>
    rw [List.replicate_succ, runOps_cons .edge _ s _ (exec_edge s)] at h
    have hRest := ih h
    rw [State.complete_blk, edgeEffect_frame] at hRest
    exact hRest

/-- `n` edges and then a tick: the tick finds the record as before but for `TOT` and the position, which has moved by
`n` shifts of the direction. -/
theorem runOps_edges_tick (n : Nat) (s : State) :
    ∃ b t, runOps (List.replicate n .edge ++ [.tick]) s = .next t
      ∧ b = { s.blk with pos := b.pos, tot := b.tot }
      ∧ b.pos.toInt = (s.blk.pos.toInt + n * s.blk.dir.edgeShift).bmod (2 ^ 16)
      ∧ t.blk = tickEffect s.par.stallThreshold b := by
  obtain ⟨t, hRun, -, hPos⟩ := runOps_edges n s
  have hFrame := runOps_edges_frame hRun
  have hPar : t.par = s.par := by rw [hFrame]
  have hBlk : t.blk = { s.blk with pos := t.blk.pos, tot := t.blk.tot } := congrArg State.blk hFrame
  have hTick := (runOps_append _ [.tick] s t hRun).trans ((runOps_single .tick t).trans (exec_tick t))
  exact ⟨t.blk, _, hTick, hBlk, hPos, by rw [State.complete_blk, hPar]⟩

theorem bmod_of_signed {p : Int} (hLow : -(2 ^ 15) ≤ p) (hHigh : p < 2 ^ 15) : p.bmod (2 ^ 16) = p := by
  apply Int.bmod_eq_of_le <;> omega

/-- Settles O40: without a wrap the `n` edges move the position by `n`, from short of the target; a tick that finds the
target reached stops the drive. -/
theorem overshootAtMostTheEdgesBetweenTicks : Obligations.OvershootAtMostTheEdgesBetweenTicks := by
  intro s n hCalibrated
  obtain ⟨b, t, hRun, hFrame, hPos, hTick⟩ := runOps_edges_tick n s
  have hDir : b.dir = s.blk.dir := by rw [hFrame]
  have hTarget : b.postgt = s.blk.postgt := by rw [hFrame]
  have hStillCalibrated : b.posmax ≠ 0 := by rwa [hFrame]
  have hStops (hArrived : b.arrived = true) : t.blk.dir = .disabled := by
    rw [hTick, tickEffect_dir_of_arrived _ b hStillCalibrated hArrived]
  have hTickPos : t.blk.pos = b.pos := by rw [hTick, tickEffect_pos]
  have hTickTarget : t.blk.postgt = b.postgt := by rw [hTick, tickEffect_postgt]
  have hLow := s.blk.pos.le_toInt
  have hHigh := s.blk.pos.toInt_lt
  refine ⟨fun hOpening hShort hNoWrap => ⟨t, hRun, ?_⟩, fun hClosing hShort hNoWrap => ⟨t, hRun, ?_⟩⟩
  · rw [hTickPos, hTickTarget]
    intro hReached
    refine ⟨hStops ((arrived_iff_of_opening b (hDir.trans hOpening)).mpr hReached), ?_⟩
    rw [hPos, hOpening, Dir.edgeShift, bmod_of_signed (by omega) (by omega), hTarget]
    omega
  · rw [hTickPos, hTickTarget]
    intro hReached
    refine ⟨hStops ((arrived_iff_of_closing b (hDir.trans hClosing)).mpr hReached), ?_⟩
    rw [hPos, hClosing, Dir.edgeShift, bmod_of_signed (by omega) (by omega), hTarget]
    omega

/-- Settles O41: two edges carry the position one past the target, where the tick stops the drive. -/
theorem positionCanEndBeyondRange : Obligations.PositionCanEndBeyondRange := by
  intro s hOpening hTarget hCalibrated hNoWrap hShort
  obtain ⟨b, t, hRun, hFrame, hPos, hTick⟩ := runOps_edges_tick 2 s
  have hDir : b.dir = .opening := (congrArg Block.dir hFrame).trans hOpening
  have hMax : b.posmax = s.blk.posmax := by rw [hFrame]
  have hBeyond : b.pos.toInt = b.posmax.toInt + 1 := by
    rw [hPos, hOpening, Dir.edgeShift, hMax, bmod_of_signed] <;> omega
  have hArrived : b.arrived = true := by
    have hTargetIsMax : b.postgt = b.posmax := (congrArg Block.postgt hFrame).trans (hTarget.trans hMax.symm)
    rw [arrived_iff_of_opening b hDir, hTargetIsMax, hBeyond]
    omega
  have hStillCalibrated : b.posmax ≠ 0 := by
    rw [hMax]
    intro hZero
    rw [hZero] at hCalibrated
    exact absurd hCalibrated (by decide)
  refine ⟨t, hRun, ?_, ?_⟩
  · rw [hTick, tickEffect_dir_of_arrived _ b hStillCalibrated hArrived]
  · rw [hTick, tickEffect_pos, tickEffect_posmax, hBeyond]

/-! ## Ticks without edges (R131) -/

/-- A drive with no arrival, and `k` ticks that keep its count within the threshold: it drives on in its direction, and
both counters have counted the ticks. -/
theorem runOps_ticks (k : Nat) (s : State) (hDriving : s.blk.dir ≠ .disabled)
    (hNoArrival : ¬ (s.blk.posmax ≠ 0 ∧ s.blk.arrived = true))
    (hWithin : s.blk.tot.toNat + k ≤ s.par.stallThreshold.toNat) :
    ∃ t, runOps (List.replicate k .tick) s = .next t ∧ t.par = s.par ∧ t.blk.dir = s.blk.dir
      ∧ t.blk.tot.toNat = s.blk.tot.toNat + k ∧ t.blk.runt = s.blk.runt + BitVec.ofNat 16 k := by
  induction k generalizing s with
  | zero => exact ⟨s, rfl, rfl, rfl, rfl, (BitVec.add_zero _).symm⟩
  | succ k ih =>
    have hBound := s.par.stallThreshold.isLt
    have hNext : (s.blk.tot + 1).toNat = s.blk.tot.toNat + 1 := by
      rw [add_one_toNat]
      exact Nat.mod_eq_of_lt (by omega)
    have hNoStall : (s.blk.tot.toNat + 1) % 2 ^ 16 ≤ s.par.stallThreshold.toNat := by
      rw [← add_one_toNat, hNext]
      omega
    have hTick := exec_tick_of_effect s _ (tickEffect_of_still_driving _ s.blk hDriving hNoStall hNoArrival)
    have hStillWithin : (s.blk.tot + 1).toNat + k ≤ s.par.stallThreshold.toNat := by
      rw [hNext]
      omega
    obtain ⟨t, hRun, hPar, hDir, hTot, hRunt⟩ := ih
      (s.complete { s.blk with tot := s.blk.tot + 1, runt := s.blk.runt + 1, ticken := true } (.k true))
      hDriving hNoArrival hStillWithin
    rw [State.complete_blk] at hTot hRunt
    refine ⟨t, (runOps_cons .tick _ s _ hTick).trans hRun, hPar, hDir, ?_, ?_⟩
    · rw [hTot, hNext, Nat.add_assoc, Nat.add_comm 1]
    · rw [hRunt, BitVec.add_assoc, Nat.add_comm k, BitVec.ofNat_add]
      rfl

/-- Settles O37: the drive after `k` ticks, and at the threshold the tick that stalls. -/
theorem stallFiresRightAfterThreshold : Obligations.StallFiresRightAfterThreshold := by
  intro s k hSafe hDriving hFresh hShort hWithin
  obtain ⟨⟨hBelowMax, -⟩, -, -⟩ := hSafe
  have hFromZero : s.blk.tot.toNat + k = k := by
    rw [hFresh]
    exact Nat.zero_add k
  obtain ⟨t, hRun, hPar, hDir, hTot, hRunt⟩ :=
    runOps_ticks k s hDriving (no_arrival_of_uncalibrated_or_not_arrived hShort) (hFromZero.trans_le hWithin)
  rw [hFromZero] at hTot
  refine ⟨t, hRun, hDir, hTot, hRunt, fun hAtThreshold => ?_⟩
  have hStall : t.par.stallThreshold.toNat < (t.blk.tot.toNat + 1) % 2 ^ 16 := by
    rw [hTot, hPar]
    omega
  exact ⟨_, exec_tick t, tickEffect_dir_of_stalled _ _ hStall, tickEffect_runt_of_stalled _ _ hStall⟩

/-! ## Bounded driving (R135) -/

theorem not_enable_of_leavesStallCount {i : Instr} (h : leavesStallCount i = true) :
    ¬ (i = .enableO ∨ i = .enableC) := by
  rintro (rfl | rfl) <;> cases h

/-- Of the operations that leave the stall count, only the tick moves it. -/
theorem tot_of_leavesStallCount {i : Instr} {s t : State} (hKind : leavesStallCount i = true)
    (h : exec i s = .next t) : t.blk.tot = if i = .tick then s.blk.tot + 1 else s.blk.tot := by
  split
  · next hTick =>
    subst hTick
    cases h
    exact tickEffect_tot _ s.blk
  · next hNoTick =>
    by_contra hChanged
    rcases (exec_recordWrite h).tot_writers hChanged with ⟨hEnable, -⟩ | ⟨rfl, -⟩ | ⟨hTick, -⟩ | ⟨rfl, -⟩
    · exact not_enable_of_leavesStallCount hKind hEnable
    · cases hKind
    · exact hNoTick hTick
    · cases hKind

/-- Settles O38: by induction on the run. Once the motor is off nothing in the run starts it again; while it drives, the
count is within the threshold, so it does not wrap, and each tick brings it one nearer. -/
theorem drivingIsBoundedWithoutEdges : Obligations.DrivingIsBoundedWithoutEdges := by
  suffices hOffOrCounting : ∀ (ops : List Instr) (s : State), Safe s → ops.all leavesStallCount = true →
      s.blk.dir = .disabled ∨ s.par.stallThreshold.toNat < s.blk.tot.toNat + ops.count .tick →
      ∃ t, runOps ops s = .next t ∧ t.blk.dir = .disabled from
    fun ops s hSafe hAll hEnough => hOffOrCounting ops s hSafe hAll (.inr hEnough)
  intro ops
  induction ops with
  | nil =>
    rintro s ⟨-, -, hWithin⟩ - hOffOrCounting
    refine ⟨s, rfl, by_contra fun hOn => ?_⟩
    exact hOffOrCounting.elim hOn (hWithin hOn).not_gt
  | cons i ops ih =>
    intro s hSafe hAll hOffOrCounting
    rw [List.all_cons, Bool.and_eq_true] at hAll
    obtain ⟨hKind, hRest⟩ := hAll
    obtain ⟨t, hExec⟩ := exec_completes i s
    rw [runOps_cons i ops s t hExec]
    refine ih t (exec_keeps_safe hSafe hExec) hRest (or_iff_not_imp_left.mpr fun hOn => ?_)
    have hWasOn : s.blk.dir ≠ .disabled := fun hOff =>
      not_enable_of_leavesStallCount hKind (enable_of_drive_starts i s t hExec hOff hOn)
    obtain ⟨⟨hBelowMax, -⟩, -, hWithin⟩ := hSafe
    have hCount := hOffOrCounting.resolve_left hWasOn
    have hTot := tot_of_leavesStallCount hKind hExec
    rw [exec_par hExec, hTot]
    have hStillWithin := hWithin hWasOn
    by_cases hTick : i = .tick
    · subst hTick
      rw [List.count_cons_self] at hCount
      rw [if_pos rfl, add_one_toNat]
      omega
    · rw [List.count_cons_of_ne hTick] at hCount
      rwa [if_neg hTick]

end Sys2Proof.Machine
end

section
/-!
Every sequence of the HOST returns with the motor off (45_host_sequences.md, sections 1 to 4), and how the HOST tells
the outcome of a seek (R167, R182).
-/

namespace Sys2Proof.Machine

/-! ## The points of a sequence at which the motor may drive -/

/-- After the enable of a phase or of a seek, and in every wait, the motor may drive; at every other point it is off. -/
def HostPt.mayDrive : HostPt → Bool
  | .wait _ => true
  | .phCsr _ => true
  | .phRunt _ => true
  | .phDisable _ => true
  | _ => false

/-- The motor is off unless the foreground stands at a point that admits a drive. -/
def OffUnlessDriving (b : Block) (pt : HostPt) : Prop := pt.mayDrive = false → b.dir = .disabled

theorem offUnlessDriving_of_off {b : Block} (hOff : b.dir = .disabled) (pt : HostPt) : OffUnlessDriving b pt :=
  fun _ => hOff

theorem offUnlessDriving_of_mayDrive (b : Block) {pt : HostPt} (h : pt.mayDrive = true) : OffUnlessDriving b pt :=
  fun hNot => absurd hNot (ne_false_of_eq_true h)

/-- A line that polls the status word leaves its polling only if it read that the motor is off (R161, R168). -/
theorem offUnlessDriving_of_poll {b : Block} {returned polling : HostPt} (hPolling : polling.mayDrive = true) :
    OffUnlessDriving b (if b.dir = .disabled then returned else polling) := by
  split
  · next hOff => exact offUnlessDriving_of_off hOff returned
  · exact offUnlessDriving_of_mayDrive b hPolling

/-- Each line of a sequence takes the fact of its point to that of the next: an enable leads to a point that admits the
drive, from which only a poll that reads Disabled and the force stop lead away; no other line starts the motor. -/
theorem OffUnlessDriving.line {s u : State} {pt : HostPt} {i : Instr} (h : OffUnlessDriving s.blk pt)
    (hInstr : hostInstr pt = some i) (hExec : exec i s = .next u) :
    OffUnlessDriving u.blk (hostNext s.par u.ret.word pt) := by
  cases pt with
  | wait w =>
    cases hInstr
    cases hExec
    change OffUnlessDriving s.blk (hostNext s.par s.blk.status (.wait w))
    rw [hostNext_wait_status]
    exact offUnlessDriving_of_poll rfl
  | phCsr p =>
    cases hInstr
    cases hExec
    change OffUnlessDriving s.blk (hostNext s.par s.blk.status (.phCsr p))
    rw [hostNext_phCsr_status]
    exact offUnlessDriving_of_poll rfl
  | phRunt p =>
    rw [hostNext_phRunt]
    split <;> exact offUnlessDriving_of_mayDrive _ rfl
  | phEnable p => exact offUnlessDriving_of_mayDrive _ rfl
  | skEnable t p => exact offUnlessDriving_of_mayDrive _ rfl
  | phDisable p =>
    cases hInstr
    cases hExec
    exact offUnlessDriving_of_off rfl _
  | idle | done => cases hInstr
  | _ =>
    cases hInstr
    cases hExec
    exact offUnlessDriving_of_off (h rfl) _

/-! ## The run of a sequence -/

/-- A state in a sequence or after its return, with nothing else of the HOST's to come. -/
structure InSequence (s : State) : Prop where
  arrivals : s.arrivals.all whileSequenceRuns = true
  point : OffUnlessDriving s.blk s.host

theorem InSequence.of_step {s t : State} (hIn : InSequence s) (h : step s = .next t) : InSequence t := by
  obtain ⟨hAll, hPoint⟩ := hIn
  cases hArrivals : s.arrivals with
  | nil =>
    cases (step_idle s hArrivals).symm.trans h
    exact ⟨hAll, hPoint⟩
  | cons a rest =>
    rw [hArrivals, List.all_cons, Bool.and_eq_true] at hAll
    obtain ⟨hAdmitted, hRest⟩ := hAll
    rw [step_cons s a rest hArrivals] at h
    rcases performArrival_betweenLines_or_line hAdmitted h with hBetween | ⟨i, u, hInstr, hExec, rfl⟩
    · refine ⟨hBetween.arrivals hRest, fun hOffPoint => hBetween.blk.dir (hPoint ?_)⟩
      rw [hBetween.host] at hOffPoint
      exact hOffPoint
    · obtain ⟨-, -, -, hKeptArrivals⟩ := exec_outside_record hExec
      have hNext := OffUnlessDriving.line (s := s.withArrivals rest) hPoint hInstr hExec
      exact ⟨hKeptArrivals ▸ hRest, hNext⟩

/-- Settles O53: from the call on the motor is off at every point that does not admit a drive, and a returned sequence
stands at such a point. -/
theorem sequencesReturnWithMotorOff : Obligations.SequencesReturnWithMotorOff := by
  intro s t n c rest hIdle hOff hArrivals hAll hRun r hReturned
  rw [runSteps_succ n s _ (step_call s c rest hArrivals hIdle)] at hRun
  have hStart : InSequence { s.withArrivals rest with host := startCall c } :=
    ⟨hAll, offUnlessDriving_of_off hOff (startCall c)⟩
  have hEnd := runSteps_invariant InSequence (fun _ _ => InSequence.of_step) n _ t hStart hRun
  refine hEnd.point ?_
  rw [hReturned]
  rfl

/-! ## The outcome of a seek (R167, R182) -/

theorem seekOutcome_opening (t p : Word) :
    seekOutcome .opening t p = if t.toInt ≤ p.toInt then .arrived else .stallTimeout := by
  simp only [seekOutcome, geS_iff]

theorem seekOutcome_closing (t p : Word) :
    seekOutcome .closing t p = if p.toInt ≤ t.toInt then .arrived else .stallTimeout := by
  simp only [seekOutcome, leS_iff]

/-- Settles O56: the outcome is decided by one signed comparison in the direction of the drive. -/
theorem seekOutcomeToldFromPosition : Obligations.SeekOutcomeToldFromPosition := by
  intro t p
  rw [seekOutcome_opening, seekOutcome_closing]
  simp

end Sys2Proof.Machine
end
